-- ==== Sys2Proof/Word.lean ====
section
/-! DEFINITION. The word types of the machine (spec 00_scope.md R6, R8, R9): every value is an unsigned bit vector. -/

namespace Sys2Proof

/-- A memory byte or a general register (R6 `V_WIDTH`, `TIMER_WIDTH`: 8 bits). -/
abbrev Byte := BitVec 8

/-- An instruction word, `I`, `PC` or a stack entry (R6 `I_WIDTH`, `PC_WIDTH`: 16 bits). -/
abbrev Word := BitVec 16

/-- The immediate `NNN`, a 12-bit address (R9). -/
abbrev Addr12 := BitVec 12

/-- The immediate `N`, or one nibble of an instruction word (R8, R9). -/
abbrev Nibble := BitVec 4

/-- A register number `X` or `Y`, 0..15 (R9, R20). -/
abbrev RegIdx := Fin 16

end Sys2Proof
end

