-- ==== Sys2Proof/Syntax.lean ====
section
/-! DEFINITION. The instructions: one constructor per row of spec/opcode_table.json (30_encoding.md R95), in the table's
order. Operands are the fields of the row (R82); nothing here says what an instruction does. -/

namespace Sys2Proof

/-- The 35 instruction forms of R95. `x` and `y` are register numbers, `nn` and `nnn` immediates, `n` a row count. -/
inductive Instr where
  /-- 00E0 CLS (R180). -/
  | cls
  /-- 00EE RET (R133). -/
  | ret
  /-- 0NNN SYS addr, every class-0 word but 00E0 and 00EE (R139). -/
  | sys (nnn : Addr12)
  /-- 1NNN JP addr (R131). -/
  | jp (nnn : Addr12)
  /-- 2NNN CALL addr (R132). -/
  | call (nnn : Addr12)
  /-- 3XNN SE Vx, byte (R135). -/
  | seImm (x : RegIdx) (nn : Byte)
  /-- 4XNN SNE Vx, byte (R136). -/
  | sneImm (x : RegIdx) (nn : Byte)
  /-- 5XY0 SE Vx, Vy (R137). -/
  | seReg (x y : RegIdx)
  /-- 6XNN LD Vx, byte (R100). -/
  | ldImm (x : RegIdx) (nn : Byte)
  /-- 7XNN ADD Vx, byte (R101). -/
  | addImm (x : RegIdx) (nn : Byte)
  /-- 8XY0 LD Vx, Vy (R102). -/
  | ldReg (x y : RegIdx)
  /-- 8XY1 OR Vx, Vy (R103). -/
  | or (x y : RegIdx)
  /-- 8XY2 AND Vx, Vy (R104). -/
  | and (x y : RegIdx)
  /-- 8XY3 XOR Vx, Vy (R105). -/
  | xor (x y : RegIdx)
  /-- 8XY4 ADD Vx, Vy (R106). -/
  | addReg (x y : RegIdx)
  /-- 8XY5 SUB Vx, Vy (R107). -/
  | sub (x y : RegIdx)
  /-- 8XY6 SHR Vx, Vy (R108); Y is kept whatever the quirk (R84). -/
  | shr (x y : RegIdx)
  /-- 8XY7 SUBN Vx, Vy (R109). -/
  | subn (x y : RegIdx)
  /-- 8XYE SHL Vx, Vy (R110); Y is kept whatever the quirk (R84). -/
  | shl (x y : RegIdx)
  /-- 9XY0 SNE Vx, Vy (R138). -/
  | sneReg (x y : RegIdx)
  /-- ANNN LD I, addr (R150). -/
  | ldI (nnn : Addr12)
  /-- BNNN JP V0, addr (R134); the row's field X is NNN[11:8]. -/
  | jpV0 (nnn : Addr12)
  /-- CXNN RND Vx, byte (R195). -/
  | rnd (x : RegIdx) (nn : Byte)
  /-- DXYN DRW Vx, Vy, nibble (R181). -/
  | drw (x y : RegIdx) (n : Nibble)
  /-- EX9E SKP Vx (R170). -/
  | skp (x : RegIdx)
  /-- EXA1 SKNP Vx (R171). -/
  | sknp (x : RegIdx)
  /-- FX07 LD Vx, DT (R200). -/
  | ldXDt (x : RegIdx)
  /-- FX0A LD Vx, K (R172). -/
  | ldXK (x : RegIdx)
  /-- FX15 LD DT, Vx (R201). -/
  | ldDtX (x : RegIdx)
  /-- FX18 LD ST, Vx (R202). -/
  | ldStX (x : RegIdx)
  /-- FX1E ADD I, Vx (R151). -/
  | addI (x : RegIdx)
  /-- FX29 LD F, Vx (R152). -/
  | ldF (x : RegIdx)
  /-- FX33 LD B, Vx (R190). -/
  | ldB (x : RegIdx)
  /-- FX55 LD [I], Vx (R153). -/
  | ldMemX (x : RegIdx)
  /-- FX65 LD Vx, [I] (R154). -/
  | ldXMem (x : RegIdx)
deriving DecidableEq, Repr

end Sys2Proof
end

