-- ==== Sys2Proof/WellFormed.lean ====
section
/-! DEFINITION. Which terms of Instr stand for an instruction word. The operand types carry every field's width, so the only
check left is SYS's two excluded words (spec/opcode_table.json row SYS, 30_encoding.md R86). -/

namespace Sys2Proof

/-- `SYS NNN` excludes the words 0x00E0 (CLS) and 0x00EE (RET); every other term is well formed. -/
def Instr.wellFormed : Instr → Bool
  | .sys nnn => nnn != 0x0E0#12 && nnn != 0x0EE#12
  | .cls => true
  | .ret => true
  | .jp _ => true
  | .call _ => true
  | .seImm _ _ => true
  | .sneImm _ _ => true
  | .seReg _ _ => true
  | .ldImm _ _ => true
  | .addImm _ _ => true
  | .ldReg _ _ => true
  | .or _ _ => true
  | .and _ _ => true
  | .xor _ _ => true
  | .addReg _ _ => true
  | .sub _ _ => true
  | .shr _ _ => true
  | .subn _ _ => true
  | .shl _ _ => true
  | .sneReg _ _ => true
  | .ldI _ => true
  | .jpV0 _ => true
  | .rnd _ _ => true
  | .drw _ _ _ => true
  | .skp _ => true
  | .sknp _ => true
  | .ldXDt _ => true
  | .ldXK _ => true
  | .ldDtX _ => true
  | .ldStX _ => true
  | .addI _ => true
  | .ldF _ => true
  | .ldB _ => true
  | .ldMemX _ => true
  | .ldXMem _ => true

end Sys2Proof
end

