-- ==== Sys2Proof/Decode.lean ====
section
/-! DEFINITION. The decoder of 30_encoding.md R85, total on every word and on every byte list, and after it the encoder of
R81 and R82. Words are big-endian in memory (20_memory.md R57). -/

namespace Sys2Proof

/-- Why bytes are no instruction. -/
inductive DecodeError where
  /-- Fewer than the two bytes of an instruction (R80). -/
  | truncated
  /-- `decode(w)` is `unknown` (R85, R91). -/
  | unknown (w : Word)
deriving DecidableEq, Repr

/-- The instruction word of two consecutive bytes, the one at the lower address first: `zext_16(hi) << 8 | zext_16(lo)`
(R55, R57). -/
def wordOfBytes (hi lo : Byte) : Word := hi.setWidth 16 <<< 8 ||| lo.setWidth 16

/-- `class = w[15:12]` (R82), as a number. -/
def fieldClass (w : Word) : Nat := (w.extractLsb' 12 4).toNat

/-- `X = w[11:8]` (R82). -/
def fieldX (w : Word) : RegIdx := (w.extractLsb' 8 4).toFin

/-- `Y = w[7:4]` (R82). -/
def fieldY (w : Word) : RegIdx := (w.extractLsb' 4 4).toFin

/-- `N = w[3:0]` (R82); also the selector `S` of format AXYS. -/
def fieldN (w : Word) : Nibble := w.extractLsb' 0 4

/-- `NN = w[7:0]` (R82); also the selector `SS` of format AXSS. -/
def fieldNN (w : Word) : Byte := w.extractLsb' 0 8

/-- `NNN = w[11:0]` (R82). -/
def fieldNNN (w : Word) : Addr12 := w.extractLsb' 0 12

/-- The register number named by the high nibble of `NNN` in BNNN (R84). -/
def regOfNNN (nnn : Addr12) : RegIdx := (nnn.extractLsb' 8 4).toFin

/-- Class 0x0 (R86). -/
def decodeClass0 (w : Word) : Instr :=
  if w = 0x00E0#16 then .cls else if w = 0x00EE#16 then .ret else .sys (fieldNNN w)

/-- Class 0x8, selected by the low nibble (R88). -/
def decodeClass8 (w : Word) : Except DecodeError Instr :=
  match (fieldN w).toNat with
  | 0x0 => .ok (.ldReg (fieldX w) (fieldY w))
  | 0x1 => .ok (.or (fieldX w) (fieldY w))
  | 0x2 => .ok (.and (fieldX w) (fieldY w))
  | 0x3 => .ok (.xor (fieldX w) (fieldY w))
  | 0x4 => .ok (.addReg (fieldX w) (fieldY w))
  | 0x5 => .ok (.sub (fieldX w) (fieldY w))
  | 0x6 => .ok (.shr (fieldX w) (fieldY w))
  | 0x7 => .ok (.subn (fieldX w) (fieldY w))
  | 0xE => .ok (.shl (fieldX w) (fieldY w))
  | _ => .error (.unknown w)

/-- Class 0xE, selected by the low byte (R89). -/
def decodeClassE (w : Word) : Except DecodeError Instr :=
  if fieldNN w = 0x9E#8 then .ok (.skp (fieldX w))
  else if fieldNN w = 0xA1#8 then .ok (.sknp (fieldX w))
  else .error (.unknown w)

/-- Class 0xF, selected by the low byte (R90). -/
def decodeClassF (w : Word) : Except DecodeError Instr :=
  if fieldNN w = 0x07#8 then .ok (.ldXDt (fieldX w))
  else if fieldNN w = 0x0A#8 then .ok (.ldXK (fieldX w))
  else if fieldNN w = 0x15#8 then .ok (.ldDtX (fieldX w))
  else if fieldNN w = 0x18#8 then .ok (.ldStX (fieldX w))
  else if fieldNN w = 0x1E#8 then .ok (.addI (fieldX w))
  else if fieldNN w = 0x29#8 then .ok (.ldF (fieldX w))
  else if fieldNN w = 0x33#8 then .ok (.ldB (fieldX w))
  else if fieldNN w = 0x55#8 then .ok (.ldMemX (fieldX w))
  else if fieldNN w = 0x65#8 then .ok (.ldXMem (fieldX w))
  else .error (.unknown w)

/-- `decode(w)` (R85). The last arm is never reached: a class is below 16. -/
def decodeWord (w : Word) : Except DecodeError Instr :=
  match fieldClass w with
  | 0x0 => .ok (decodeClass0 w)
  | 0x1 => .ok (.jp (fieldNNN w))
  | 0x2 => .ok (.call (fieldNNN w))
  | 0x3 => .ok (.seImm (fieldX w) (fieldNN w))
  | 0x4 => .ok (.sneImm (fieldX w) (fieldNN w))
  | 0x5 => if fieldN w = 0x0#4 then .ok (.seReg (fieldX w) (fieldY w)) else .error (.unknown w)
  | 0x6 => .ok (.ldImm (fieldX w) (fieldNN w))
  | 0x7 => .ok (.addImm (fieldX w) (fieldNN w))
  | 0x8 => decodeClass8 w
  | 0x9 => if fieldN w = 0x0#4 then .ok (.sneReg (fieldX w) (fieldY w)) else .error (.unknown w)
  | 0xA => .ok (.ldI (fieldNNN w))
  | 0xB => .ok (.jpV0 (fieldNNN w))
  | 0xC => .ok (.rnd (fieldX w) (fieldNN w))
  | 0xD => .ok (.drw (fieldX w) (fieldY w) (fieldN w))
  | 0xE => decodeClassE w
  | 0xF => decodeClassF w
  | _ => .error (.unknown w)

/-- The instruction at the head of a byte list, with the bytes after it; every instruction is two bytes (R80). -/
def decodeBytes : List Byte → Except DecodeError (Instr × List Byte)
  | hi :: lo :: rest =>
    match decodeWord (wordOfBytes hi lo) with
    | .ok i => .ok (i, rest)
    | .error e => .error e
  | [] => .error .truncated
  | [_] => .error .truncated

/-- The word of a row of spec/opcode_table.json: the low `nbits` bits of `w`, the instruction's other bits 0. An
instruction is one word, so the table's bit 0 is bit 0 of that word. -/
def tableWord (nbits w : Nat) : Word := BitVec.ofNat 16 (w % 2 ^ nbits)

/-- The two bytes of a word as memory holds them, the high byte at the lower address (R57). -/
def bytesOfWord (w : Word) : List Byte := [w.extractLsb' 8 8, w.extractLsb' 0 8]

/-- What the decoder reads from the bytes of a table row's word. -/
def decodeTableWord (nbits w : Nat) : Option Instr :=
  match decodeBytes (bytesOfWord (tableWord nbits w)) with
  | .ok (i, _) => some i
  | .error _ => none

/-- A register number as the nibble of a word. -/
def regNibble (r : RegIdx) : Nibble := BitVec.ofFin r

/-- Format ANNN (R81): `base | NNN`. -/
def encodeANNN (base : Word) (nnn : Addr12) : Word := base ||| nnn.setWidth 16

/-- Format AXSS (R81): `base | X<<8`; the selector stands in the base. -/
def encodeAX (base : Word) (x : RegIdx) : Word := base ||| (regNibble x).setWidth 16 <<< 8

/-- Format AXNN (R81): `base | X<<8 | NN`. -/
def encodeAXNN (base : Word) (x : RegIdx) (nn : Byte) : Word := encodeAX base x ||| nn.setWidth 16

/-- Format AXYS (R81): `base | X<<8 | Y<<4`; the selector stands in the base. -/
def encodeAXY (base : Word) (x y : RegIdx) : Word := encodeAX base x ||| (regNibble y).setWidth 16 <<< 4

/-- Format AXYN (R81): `base | X<<8 | Y<<4 | N`. -/
def encodeAXYN (base : Word) (x y : RegIdx) (n : Nibble) : Word := encodeAXY base x y ||| n.setWidth 16

/-- The word of an instruction: the Encoding line of each rule of 40_arithmetic.md to 47_timers.md (R81, R95). For an
ill-formed `sys` it is the word of the form that `sys` excludes. -/
def encode : Instr → Word
  | .cls => 0x00E0#16
  | .ret => 0x00EE#16
  | .sys nnn => encodeANNN 0x0000 nnn
  | .jp nnn => encodeANNN 0x1000 nnn
  | .call nnn => encodeANNN 0x2000 nnn
  | .seImm x nn => encodeAXNN 0x3000 x nn
  | .sneImm x nn => encodeAXNN 0x4000 x nn
  | .seReg x y => encodeAXY 0x5000 x y
  | .ldImm x nn => encodeAXNN 0x6000 x nn
  | .addImm x nn => encodeAXNN 0x7000 x nn
  | .ldReg x y => encodeAXY 0x8000 x y
  | .or x y => encodeAXY 0x8001 x y
  | .and x y => encodeAXY 0x8002 x y
  | .xor x y => encodeAXY 0x8003 x y
  | .addReg x y => encodeAXY 0x8004 x y
  | .sub x y => encodeAXY 0x8005 x y
  | .shr x y => encodeAXY 0x8006 x y
  | .subn x y => encodeAXY 0x8007 x y
  | .shl x y => encodeAXY 0x800E x y
  | .sneReg x y => encodeAXY 0x9000 x y
  | .ldI nnn => encodeANNN 0xA000 nnn
  | .jpV0 nnn => encodeANNN 0xB000 nnn
  | .rnd x nn => encodeAXNN 0xC000 x nn
  | .drw x y n => encodeAXYN 0xD000 x y n
  | .skp x => encodeAX 0xE09E x
  | .sknp x => encodeAX 0xE0A1 x
  | .ldXDt x => encodeAX 0xF007 x
  | .ldXK x => encodeAX 0xF00A x
  | .ldDtX x => encodeAX 0xF015 x
  | .ldStX x => encodeAX 0xF018 x
  | .addI x => encodeAX 0xF01E x
  | .ldF x => encodeAX 0xF029 x
  | .ldB x => encodeAX 0xF033 x
  | .ldMemX x => encodeAX 0xF055 x
  | .ldXMem x => encodeAX 0xF065 x

end Sys2Proof
end

