-- ==== Sys2Proof/Config.lean ====
section
/-! DEFINITION. What is fixed for a run: the constants and arguments of spec 00_scope.md R6, the font of 10_state.md R31,
and the free value of the random draw (10_state.md R35). -/

namespace Sys2Proof

/-- The four quirk toggles (00_scope.md R6, 10_state.md R32). They are arguments, not state: no instruction reads them as
data or writes them. The field values below are the spec's defaults (92_eei_decisions.md D3). -/
structure Quirks where
  /-- `Q_SHIFT_VY`: 8XY6 and 8XYE shift V[Y] instead of V[X]. -/
  shiftVy : Bool := false
  /-- `Q_JUMP_VX`: BNNN adds V[NNN[11:8]] instead of V0. -/
  jumpVx : Bool := false
  /-- `Q_LOADSTORE_INC_I`: FX55 and FX65 leave I at I + X + 1. -/
  loadStoreIncI : Bool := false
  /-- `Q_CLIP_V`: sprite rows past the bottom edge are clipped, not wrapped. -/
  clipV : Bool := true
deriving DecidableEq, Repr

/-- The arguments of the machine (00_scope.md R6): the quirks and `FONT_BASE`. The type of `fontBase` is R6's constraint
`FONT_BASE + 80 <= 0x200`, so every configuration is a legal one. -/
structure Config where
  quirks : Quirks := {}
  fontBase : Fin 433 := 0x050
deriving DecidableEq, Repr

/-- `MEM_SIZE` (R6, R50): addresses 0x000-0xFFF. -/
def Config.memSize : Nat := 0x1000

/-- `ROM_BASE` (R6), the first address past the reserved area 0x000-0x1FF and the entry point (R51). -/
def Config.romBase : Nat := 0x200

/-- `ROM_MAX` (R6): the largest ROM image, which fills 0x200-0xFFF exactly. -/
def Config.romMax : Nat := 0xE00

/-- The 16 glyphs of 5 bytes, 80 bytes in all (R6 `FONT_GLYPHS`). -/
def Config.fontSize : Nat := 80

/-- `FONT_DATA`, the table of 10_state.md R31, one line per digit. -/
def Config.fontData : List Byte :=
  [0xF0, 0x90, 0x90, 0x90, 0xF0] ++ [0x20, 0x60, 0x20, 0x20, 0x70] ++
  [0xF0, 0x10, 0xF0, 0x80, 0xF0] ++ [0xF0, 0x10, 0xF0, 0x10, 0xF0] ++
  [0x90, 0x90, 0xF0, 0x10, 0x10] ++ [0xF0, 0x80, 0xF0, 0x10, 0xF0] ++
  [0xF0, 0x80, 0xF0, 0x90, 0xF0] ++ [0xF0, 0x10, 0x20, 0x40, 0x40] ++
  [0xF0, 0x90, 0xF0, 0x90, 0xF0] ++ [0xF0, 0x90, 0xF0, 0x10, 0xF0] ++
  [0xF0, 0x90, 0xF0, 0x90, 0x90] ++ [0xE0, 0x90, 0xE0, 0x90, 0xE0] ++
  [0xF0, 0x80, 0x80, 0x80, 0xF0] ++ [0xE0, 0x90, 0x90, 0x90, 0xE0] ++
  [0xF0, 0x80, 0xF0, 0x80, 0xF0] ++ [0xF0, 0x80, 0xF0, 0x80, 0x80]

/-- The FREE VALUE of CXNN: the n-th random draw (10_state.md R35, 46_random.md R195, log entry 2). It has no body, so no
proof can see what it is, and a claim holds for every draw (92_eei_decisions.md D26). DESIGN CHOICE, unsafe for a claim that
compares two runs or two instances: there is one sequence of draws, so two states with equal `draws` draw the same byte,
while the spec says to assume no reproducibility (91_not_in_source.md) and that instances share no state (R251). -/
opaque Config.freeByte : Nat → Byte

end Sys2Proof
end

