-- ==== Sys2Proof/Machine/State.lean ====
section
/-! DEFINITION. The machine state of 10_state.md as plain data, the reasons a step or a host operation can end in an error
(60_exceptions.md R220), and the state at construction (70_reset_and_hazards.md R260). -/

namespace Sys2Proof.Machine

/-- Memory: the bytes that differ from the reset contents, as (address, byte) pairs with strictly rising addresses. What an
unlisted address reads as is `Memory.unlisted` (Machine/Ops.lean), the reset contents of R36. -/
abbrev Memory := List Host.Cell

/-- The Display Buffer `disp[x][y]`: 64 columns of 32 pixels, true means set (10_state.md R30). -/
abbrev Display := Vector (Vector Bool 32) 64

/-- The errors of 60_exceptions.md R220, in the order of their codes. Each ends the operation that raises it and commits
nothing (00_scope.md R12). -/
inductive Fault where
  /-- Code 1, raised by the host operation `load_rom` alone (R229): the length of the image. Safe: the spec's own error. -/
  | romTooLarge (len : Nat)
  /-- Code 2, raised by the fetch of every step (R224): the PC. Safe: the spec's own error. -/
  | invalidFetch (pc : Word)
  /-- Code 3, raised by decode and by SYS (R223): the word. Safe: the spec's own error. -/
  | unknownOpcode (w : Word)
  /-- Code 4, raised by DXYN, FX33, FX55 and FX65 (R225): the first failing address. Safe: the spec's own error. -/
  | memoryOutOfBounds (a : Nat)
  /-- Code 5, raised by 2NNN (R227): the return address not pushed. Safe: the spec's own error. -/
  | stackOverflow (ret : Word)
  /-- Code 6, raised by 00EE (R227). Safe: the spec's own error. -/
  | stackUnderflow
  /-- Code 7, raised by FX33 and FX55 (R226): the first failing address. Safe: the spec's own error. -/
  | reservedWrite (a : Nat)
  /-- Code 8, raised by EX9E, EXA1 and FX29 (R228): the word. Safe: the spec's own error. -/
  | invalidOperand (w : Word)
deriving DecidableEq, Repr

/-- The numeric codes of R220; they are labels. -/
def Fault.code : Fault → Nat
  | .romTooLarge _ => 1
  | .invalidFetch _ => 2
  | .unknownOpcode _ => 3
  | .memoryOutOfBounds _ => 4
  | .stackOverflow _ => 5
  | .stackUnderflow => 6
  | .reservedWrite _ => 7
  | .invalidOperand _ => 8

/-- The moves the model gives no meaning. -/
inductive Refusal where
  /-- Raised only by an arm of `exec` whose instruction has no meaning yet; no arm is one. Safe: the run stops. -/
  | notModelled (mnemonic : String)
  /-- Raised by the host operation `set_key` with an index outside 0..15 (R243); never by a step. Safe: the spec gives the
  call no move. -/
  | keyIndexOutOfRange (k : Nat)
deriving DecidableEq, Repr

/-- The state of 10_state.md. The first ten fields are the tuple S of that file; `cfg` is the configuration (R32), which no
step writes; `draws` is the model's own counter of random draws (R35). -/
structure State where
  /-- V[0..15], R20. VF is `v[15]`. -/
  v : Vector Byte 16
  /-- The index register I, R25. -/
  i : Word
  /-- The program counter, R24. -/
  pc : Word
  /-- The stack pointer: the depth 0..16, R26 (an 8-bit register whose other values never occur, log entry 3). -/
  sp : Fin 17
  /-- The call stack, R26; entry k is live when k < sp. -/
  stack : Vector Word 16
  /-- The delay timer, R28. -/
  dt : Byte
  /-- The sound timer, R28. -/
  st : Byte
  /-- Input State key[0..15], true means pressed, R29. -/
  keys : Vector Bool 16
  /-- The Display Buffer, R30. -/
  disp : Display
  /-- Memory, R31 and R50. -/
  mem : Memory
  /-- The quirk configuration and FONT_BASE, R32 and 00_scope.md R6 (log entry 1). -/
  cfg : Config
  /-- How many random draws have been taken: the argument of the free value `Config.freeByte` (log entry 2). -/
  draws : Nat
deriving DecidableEq, Repr

/-- The blank display of R260. -/
def Display.blank : Display := Vector.replicate 64 (Vector.replicate 32 false)

/-- A newly constructed machine with the given arguments (70_reset_and_hazards.md R260). The stack entries are not
observable (10_state.md R27) and hold 0 (log entry 4). -/
def State.construct (cfg : Config) : State where
  v := Vector.replicate 16 0
  i := 0
  pc := 0x200
  sp := 0
  stack := Vector.replicate 16 0
  dt := 0
  st := 0
  keys := Vector.replicate 16 false
  disp := Display.blank
  mem := []
  cfg := cfg
  draws := 0

/-- The machine right after reset: constructed with the default arguments of 00_scope.md R6, keys all released. -/
def State.reset : State := State.construct {}

end Sys2Proof.Machine
end

