-- ==== Sys2Proof/Machine/Ops.lean ====
section
/-! DEFINITION. The named operations over registers, memory, the stack and the display; the access checks of 20_memory.md;
instruction fetch; and raising an error (60_exceptions.md R233). There is no return from an error (R234). -/

namespace Sys2Proof.Machine

/-- Raising an error, the one shared operation: the step ends with the error, no state is saved or changed, no control is
transferred, and the host receives the error (R221, R233). -/
def raise (e : Fault) : Host.Outcome State Fault Refusal := .fault e

/-! ### Registers (R10, R20 to R28) -/

/-- `V[x]`. -/
def State.getV (s : State) (x : RegIdx) : Byte := s.v.get x

/-- `V[x] <- b`. -/
def State.setV (s : State) (x : RegIdx) (b : Byte) : State := { s with v := s.v.set x b }

/-- VF, register 15. -/
def regF : RegIdx := 15

/-- `I <- w`. -/
def State.setI (s : State) (w : Word) : State := { s with i := w }

/-- `PC <- w`. -/
def State.setPc (s : State) (w : Word) : State := { s with pc := w }

/-- `DT <- b`. -/
def State.setDt (s : State) (b : Byte) : State := { s with dt := b }

/-- `ST <- b`. -/
def State.setSt (s : State) (b : Byte) : State := { s with st := b }

/-- `PC <- PC + 2`, the next instruction in memory (R13, R24). -/
def State.advance (s : State) : State := s.setPc (s.pc + 2)

/-- A skip: `PC <- PC + 4` when the condition holds, else `PC <- PC + 2` (41_control_flow.md R130). -/
def State.skipIf (s : State) (c : Bool) : State := s.setPc (if c then s.pc + 4 else s.pc + 2)

/-- `key[k]`. -/
def State.key (s : State) (k : Fin 16) : Bool := s.keys.get k

/-! ### The call stack (R26) -/

/-- `push(a)`: `none` when SP = 16. -/
def State.push (s : State) (a : Word) : Option State :=
  if h : s.sp.val < 16 then
    some { s with stack := s.stack.set s.sp.val a h, sp := ⟨s.sp.val + 1, Nat.succ_lt_succ h⟩ }
  else none

/-- `pop()`: `none` when SP = 0, else the popped address and the state with SP lowered. -/
def State.pop (s : State) : Option (Word × State) :=
  if h : s.sp.val = 0 then none
  else
    some (s.stack.get ⟨s.sp.val - 1, by omega⟩, { s with sp := ⟨s.sp.val - 1, by omega⟩ })

/-! ### Memory (R31, R50) -/

/-- What an unlisted address reads as: the reset contents of 10_state.md R36, FONT_DATA at FONT_BASE and 0 elsewhere. -/
def Memory.unlisted (fontBase a : Nat) : Byte :=
  if fontBase ≤ a ∧ a < fontBase + Config.fontSize then Config.fontData.getD (a - fontBase) 0 else 0

/-- The byte at an address. -/
def Memory.read (fontBase : Nat) : Memory → Nat → Byte
  | [], a => Memory.unlisted fontBase a
  | (k, c) :: rest, a => if a = k then c else Memory.read fontBase rest a

/-- The entry for a byte: none when the address reads as that byte unlisted. -/
def Memory.entry (fontBase a : Nat) (b : Byte) : Memory :=
  if b = Memory.unlisted fontBase a then [] else [(a, b)]

/-- Puts a byte into a sorted list of entries. -/
def Memory.put (fontBase : Nat) : Memory → Nat → Byte → Memory
  | [], a, b => Memory.entry fontBase a b
  | (k, c) :: rest, a, b =>
    if a < k then Memory.entry fontBase a b ++ (k, c) :: rest
    else if a = k then Memory.entry fontBase a b ++ rest
    else (k, c) :: Memory.put fontBase rest a b

/-- The byte at `a` becomes `b`; an address past 0xFFF does not exist and holds nothing (R50). -/
def Memory.write (fontBase : Nat) (m : Memory) (a : Nat) (b : Byte) : Memory :=
  if a < Config.memSize then Memory.put fontBase m a b else m

/-- The canonical form from address `lo` on: addresses rise strictly, lie in 0x000-0xFFF, and no entry equals what its
address reads as unlisted. -/
def Memory.wfFrom (fontBase : Nat) : Nat → Memory → Bool
  | _, [] => true
  | lo, (k, c) :: rest =>
    decide (lo ≤ k) && decide (k < Config.memSize) && decide (c ≠ Memory.unlisted fontBase k) &&
      Memory.wfFrom fontBase (k + 1) rest

/-- The canonical form of memory. -/
def Memory.wf (fontBase : Nat) (m : Memory) : Bool := Memory.wfFrom fontBase 0 m

/-- `MemRead(a, 1)` without its check (R11). -/
def State.byte (s : State) (a : Nat) : Byte := Memory.read s.cfg.fontBase.val s.mem a

/-- `MemWrite(a, 1, b)` without its checks (R11). -/
def State.setByte (s : State) (a : Nat) (b : Byte) : State :=
  { s with mem := Memory.write s.cfg.fontBase.val s.mem a b }

/-- The `n` bytes at `a`, `a + 1`, ... in ascending order (R59). -/
def State.bytes (s : State) : Nat → Nat → List Byte
  | _, 0 => []
  | a, n + 1 => s.byte a :: s.bytes (a + 1) n

/-- Writes bytes at `a`, `a + 1`, ... in ascending order (R59). -/
def State.setBytes (s : State) : Nat → List Byte → State
  | _, [] => s
  | a, b :: rest => (s.setByte a b).setBytes (a + 1) rest

/-! ### Access checks (R53, R54, R60) -/

/-- `check_read(a)` (R53). -/
def checkRead (a : Nat) : Option Fault :=
  if 0xFFF < a then some (.memoryOutOfBounds a) else none

/-- `check_write(a)`: the bounds check, then the reserved-area check (R53, R54). -/
def checkWrite (a : Nat) : Option Fault :=
  if 0xFFF < a then some (.memoryOutOfBounds a)
  else if a ≤ 0x1FF then some (.reservedWrite a)
  else none

/-- The first error among the reads of `n` addresses from `a` up (R60). -/
def checkReads : Nat → Nat → Option Fault
  | _, 0 => none
  | a, n + 1 => match checkRead a with
    | some e => some e
    | none => checkReads (a + 1) n

/-- The first error among the writes of `n` addresses from `a` up (R60). -/
def checkWrites : Nat → Nat → Option Fault
  | _, 0 => none
  | a, n + 1 => match checkWrite a with
    | some e => some e
    | none => checkWrites (a + 1) n

/-- A multi-byte read: every address is checked before anything changes, then the bytes are handed on (R12, R60). -/
def withReads (s : State) (a n : Nat) (f : List Byte → State) : Host.Outcome State Fault Refusal :=
  match checkReads a n with
  | some e => raise e
  | none => .next (f (s.bytes a n))

/-- A multi-byte write: every address is checked before anything changes, then the bytes are written (R12, R60). -/
def withWrites (s : State) (a : Nat) (bs : List Byte) (f : State → State) : Host.Outcome State Fault Refusal :=
  match checkWrites a bs.length with
  | some e => raise e
  | none => .next (f (s.setBytes a bs))

/-! ### Instruction fetch (R55) -/

/-- The fetch conditions of R55: PC is even and PC + 1 is in Memory. -/
def fetchable (pc : Word) : Bool := decide (pc.toNat % 2 = 0) && decide (pc.toNat + 1 ≤ 0xFFF)

/-- `fetch()`: the big-endian word at PC, or `InvalidFetch(PC)` before any memory read (R55, R57, R224). -/
def fetch (s : State) : Except Fault Word :=
  if fetchable s.pc then .ok (wordOfBytes (s.byte s.pc.toNat) (s.byte (s.pc.toNat + 1)))
  else .error (.invalidFetch s.pc)

/-! ### The Display Buffer (R30) -/

/-- `disp[x][y]`. -/
def Display.pixel (d : Display) (x : Fin 64) (y : Fin 32) : Bool := (d.get x).get y

/-- `disp[x][y] <- b`. -/
def Display.setPixel (d : Display) (x : Fin 64) (y : Fin 32) (b : Bool) : Display := d.set x ((d.get x).set y b)

/-- `disp[x][y]` of a state. -/
def State.pixel (s : State) (x : Fin 64) (y : Fin 32) : Bool := Display.pixel s.disp x y

/-- The display becomes `d`. -/
def State.setDisp (s : State) (d : Display) : State := { s with disp := d }

/-! ### The random draw (R35) -/

/-- `draw_8()`: the next free byte, and the state that has taken it (R195). -/
def State.draw (s : State) : Byte × State := (Config.freeByte s.draws, { s with draws := s.draws + 1 })

end Sys2Proof.Machine
end

