-- ==== Sys2Proof/Machine/Operands.lean ====
section
/-! DEFINITION. The operand forms: immediates widened to 16 bits (30_encoding.md R83), quirk-dependent register operands
(R84), the digit operand of EX9E, EXA1 and FX29, the data address I + k (42_memory_ops.md R155), register lists, and the
decimal digits of FX33. -/

namespace Sys2Proof.Machine

/-- `zext_16(NNN)` (R10, R83). -/
def zext12 (nnn : Addr12) : Word := nnn.setWidth 16

/-- `zext_16` of a register value (R10, R83). -/
def zext8 (b : Byte) : Word := b.setWidth 16

/-- The source of a shift: V[Y] under `Q_SHIFT_VY`, else V[X] (R108, R110). -/
def shiftSource (s : State) (x y : RegIdx) : Byte := if s.cfg.quirks.shiftVy then s.getV y else s.getV x

/-- The offset register of BNNN: VX with X = NNN[11:8] under `Q_JUMP_VX`, else V0 (R134). -/
def jumpOffset (s : State) (nnn : Addr12) : Byte :=
  if s.cfg.quirks.jumpVx then s.getV (regOfNNN nnn) else s.getV 0

/-- V[X] as a key or digit index 0..15; `none` when it is above 0xF (R152, R170, R171). -/
def digitOperand (s : State) (x : RegIdx) : Option (Fin 16) :=
  if h : (s.getV x).toNat < 16 then some ⟨(s.getV x).toNat, h⟩ else none

/-- The first data address, I itself; address k is this plus k, in unbounded arithmetic (R53, R155). -/
def dataAddr (s : State) : Nat := s.i.toNat

/-- The values of V[k], V[k+1], ..., V[k+n-1]; past VF there is no register and the list ends (R153). -/
def regsFrom (s : State) : Nat → Nat → List Byte
  | _, 0 => []
  | k, n + 1 => if h : k < 16 then s.getV ⟨k, h⟩ :: regsFrom s (k + 1) n else []

/-- V0..VX in ascending order (R153). -/
def regsUpTo (s : State) (x : RegIdx) : List Byte := regsFrom s 0 (x.val + 1)

/-- Loads bytes into V[k], V[k+1], ... in ascending order (R154). -/
def loadRegs (s : State) : Nat → List Byte → State
  | _, [] => s
  | k, b :: rest => if h : k < 16 then loadRegs (s.setV ⟨k, h⟩ b) (k + 1) rest else s

/-- I after FX55 or FX65: I + X + 1 under `Q_LOADSTORE_INC_I`, else unchanged (R153, R154, R155). -/
def afterAccess (s : State) (x : RegIdx) : State :=
  if s.cfg.quirks.loadStoreIncI then s.setI (s.i + BitVec.ofNat 16 (x.val + 1)) else s

/-- The three decimal digits of a byte, hundreds first (R190). -/
def bcdDigits (b : Byte) : List Byte :=
  [BitVec.ofNat 8 (b.toNat / 100), BitVec.ofNat 8 (b.toNat / 10 % 10), BitVec.ofNat 8 (b.toNat % 10)]

/-- The key numbers 0..15 in ascending order. -/
def keyNumbers : List (Fin 16) := [0, 1, 2, 3, 4, 5, 6, 7] ++ [8, 9, 10, 11, 12, 13, 14, 15]

/-- `min { k | key[k] }`, if some key is pressed (R172). -/
def lowestKey (s : State) : Option (Fin 16) := keyNumbers.find? fun k => s.key k

end Sys2Proof.Machine
end

