-- ==== Sys2Proof/Machine/Flags.lean ====
section
/-! DEFINITION. The flags written to VF (10_state.md R22) and the order of the result and the flag (R23). -/

namespace Sys2Proof.Machine

/-- A flag as VF holds it: 0 or 1 (R22). -/
def flagByte (c : Bool) : Byte := if c then 1 else 0

/-- The carry of `a + b`: the sum exceeds 255 (R106). -/
def carry (a b : Byte) : Bool := decide (255 < a.toNat + b.toNat)

/-- NOT borrow of `a - b`: a >= b (R107; R109 with the operands exchanged). -/
def noBorrow (a b : Byte) : Bool := decide (b.toNat ≤ a.toNat)

/-- The bit a right shift by one shifts out, bit 0 (R108). -/
def shiftedOutRight (b : Byte) : Bool := b.getLsbD 0

/-- The bit a left shift by one shifts out, bit 7 (R110). -/
def shiftedOutLeft (b : Byte) : Bool := b.getLsbD 7

/-- The result is written to V[X] and then the flag to VF, so with X = F the flag remains (R23). -/
def State.setResult (s : State) (x : RegIdx) (res : Byte) (flag : Bool) : State :=
  (s.setV x res).setV regF (flagByte flag)

end Sys2Proof.Machine
end

