-- ==== Sys2Proof/Machine/Arithmetic.lean ====
section
/-! DEFINITION. 40_arithmetic.md: 6XNN, 7XNN, 8XY0-8XY7, 8XYE. None of them raises an error (that file's preamble). -/

namespace Sys2Proof.Machine

/-- `LD Vx, byte` (R100). -/
def execLdImm (x : RegIdx) (nn : Byte) (s : State) : Host.Outcome State Fault Refusal :=
  .next (s.setV x nn).advance

/-- `ADD Vx, byte` (R101); VF is no flag here. -/
def execAddImm (x : RegIdx) (nn : Byte) (s : State) : Host.Outcome State Fault Refusal :=
  .next (s.setV x (s.getV x + nn)).advance

/-- `LD Vx, Vy` (R102). -/
def execLdReg (x y : RegIdx) (s : State) : Host.Outcome State Fault Refusal :=
  .next (s.setV x (s.getV y)).advance

/-- `OR Vx, Vy` (R103). -/
def execOr (x y : RegIdx) (s : State) : Host.Outcome State Fault Refusal :=
  .next (s.setV x (s.getV x ||| s.getV y)).advance

/-- `AND Vx, Vy` (R104). -/
def execAnd (x y : RegIdx) (s : State) : Host.Outcome State Fault Refusal :=
  .next (s.setV x (s.getV x &&& s.getV y)).advance

/-- `XOR Vx, Vy` (R105). -/
def execXor (x y : RegIdx) (s : State) : Host.Outcome State Fault Refusal :=
  .next (s.setV x (s.getV x ^^^ s.getV y)).advance

/-- `ADD Vx, Vy` with carry (R106). -/
def execAddReg (x y : RegIdx) (s : State) : Host.Outcome State Fault Refusal :=
  .next (s.setResult x (s.getV x + s.getV y) (carry (s.getV x) (s.getV y))).advance

/-- `SUB Vx, Vy` with NOT borrow (R107). -/
def execSub (x y : RegIdx) (s : State) : Host.Outcome State Fault Refusal :=
  .next (s.setResult x (s.getV x - s.getV y) (noBorrow (s.getV x) (s.getV y))).advance

/-- `SHR Vx {, Vy}` (R108). -/
def execShr (x y : RegIdx) (s : State) : Host.Outcome State Fault Refusal :=
  .next (s.setResult x (shiftSource s x y >>> 1) (shiftedOutRight (shiftSource s x y))).advance

/-- `SUBN Vx, Vy` with NOT borrow of Vy - Vx (R109). -/
def execSubn (x y : RegIdx) (s : State) : Host.Outcome State Fault Refusal :=
  .next (s.setResult x (s.getV y - s.getV x) (noBorrow (s.getV y) (s.getV x))).advance

/-- `SHL Vx {, Vy}` (R110). -/
def execShl (x y : RegIdx) (s : State) : Host.Outcome State Fault Refusal :=
  .next (s.setResult x (shiftSource s x y <<< 1) (shiftedOutLeft (shiftSource s x y))).advance

end Sys2Proof.Machine
end

