-- ==== Sys2Proof/Machine/ControlFlow.lean ====
section
/-! DEFINITION. 41_control_flow.md: 0NNN, 00EE, 1NNN, 2NNN, BNNN and the register skips. Every rule writes PC itself; no
target is checked when it is written (R130). -/

namespace Sys2Proof.Machine

/-- `SYS addr` (R139): always `UnknownOpcode(w)`. -/
def execSys (nnn : Addr12) (_s : State) : Host.Outcome State Fault Refusal :=
  raise (.unknownOpcode (encode (.sys nnn)))

/-- `RET` (R133). -/
def execRet (s : State) : Host.Outcome State Fault Refusal :=
  match s.pop with
  | none => raise .stackUnderflow
  | some (a, s') => .next (s'.setPc a)

/-- `JP addr` (R131). -/
def execJp (nnn : Addr12) (s : State) : Host.Outcome State Fault Refusal :=
  .next (s.setPc (zext12 nnn))

/-- `CALL addr` (R132): pushes PC + 2. -/
def execCall (nnn : Addr12) (s : State) : Host.Outcome State Fault Refusal :=
  match s.push (s.pc + 2) with
  | none => raise (.stackOverflow (s.pc + 2))
  | some s' => .next (s'.setPc (zext12 nnn))

/-- `JP V0, addr` (R134): no wrap to 12 bits. -/
def execJpV0 (nnn : Addr12) (s : State) : Host.Outcome State Fault Refusal :=
  .next (s.setPc (zext12 nnn + zext8 (jumpOffset s nnn)))

/-- `SE Vx, byte` (R135). -/
def execSeImm (x : RegIdx) (nn : Byte) (s : State) : Host.Outcome State Fault Refusal :=
  .next (s.skipIf (s.getV x == nn))

/-- `SNE Vx, byte` (R136). -/
def execSneImm (x : RegIdx) (nn : Byte) (s : State) : Host.Outcome State Fault Refusal :=
  .next (s.skipIf (s.getV x != nn))

/-- `SE Vx, Vy` (R137). -/
def execSeReg (x y : RegIdx) (s : State) : Host.Outcome State Fault Refusal :=
  .next (s.skipIf (s.getV x == s.getV y))

/-- `SNE Vx, Vy` (R138). -/
def execSneReg (x y : RegIdx) (s : State) : Host.Outcome State Fault Refusal :=
  .next (s.skipIf (s.getV x != s.getV y))

end Sys2Proof.Machine
end

