-- ==== Sys2Proof/Machine/DisplayOps.lean ====
section
/-! DEFINITION. 44_display.md: 00E0 and DXYN. -/

namespace Sys2Proof.Machine

/-- `x mod 64` as a column. -/
def column (x : Nat) : Fin 64 := ⟨x % 64, Nat.mod_lt x (by decide)⟩

/-- `y mod 32` as a row. -/
def rowOf (y : Nat) : Fin 32 := ⟨y % 32, Nat.mod_lt y (by decide)⟩

/-- One sprite pixel of R181: a set bit toggles `disp[xc][yr]`, and a hit is a pixel that was set. -/
def drawPixel (bit : Bool) (xc : Fin 64) (yr : Fin 32) (d : Display) (hit : Bool) : Display × Bool :=
  if bit then (Display.setPixel d xc yr (!Display.pixel d xc yr), hit || Display.pixel d xc yr) else (d, hit)

/-- The columns `c`, `c + 1`, ... of one sprite row (`n` of them): bit 7 - c lands at column (x0 + c) mod 64 (R181). -/
def drawBits (row : Byte) (x0 : Nat) (yr : Fin 32) : Nat → Nat → Display → Bool → Display × Bool
  | _, 0, d, hit => (d, hit)
  | c, n + 1, d, hit =>
    drawBits row x0 yr (c + 1) n (drawPixel (row.getLsbD (7 - c)) (column (x0 + c)) yr d hit).1
      (drawPixel (row.getLsbD (7 - c)) (column (x0 + c)) yr d hit).2

/-- The rows of a sprite from row number `yr` on, top to bottom: a row past the bottom edge is skipped under `Q_CLIP_V` and
wraps otherwise (R181). -/
def drawRows (clipV : Bool) (x0 : Nat) : Nat → List Byte → Display → Bool → Display × Bool
  | _, [], d, hit => (d, hit)
  | yr, row :: rest, d, hit =>
    if 32 ≤ yr ∧ clipV = true then drawRows clipV x0 (yr + 1) rest d hit
    else
      drawRows clipV x0 (yr + 1) rest (drawBits row x0 (rowOf yr) 0 8 d hit).1
        (drawBits row x0 (rowOf yr) 0 8 d hit).2

/-- The display after a sprite is drawn with its start at (x0, y0), and whether a set pixel was turned off (R181, R182). -/
def drawSprite (s : State) (x0 y0 : Nat) (sprite : List Byte) : Display × Bool :=
  drawRows s.cfg.quirks.clipV x0 y0 sprite s.disp false

/-- `CLS` (R180). -/
def execCls (s : State) : Host.Outcome State Fault Refusal :=
  .next (s.setDisp Display.blank).advance

/-- `DRW Vx, Vy, nibble` (R181): the start coordinates are V[X] mod 64 and V[Y] mod 32, read before VF is written. -/
def execDrw (x y : RegIdx) (n : Nibble) (s : State) : Host.Outcome State Fault Refusal :=
  withReads s (dataAddr s) n.toNat fun sprite =>
    ((s.setDisp (drawSprite s ((s.getV x).toNat % 64) ((s.getV y).toNat % 32) sprite).1).setV regF
      (flagByte (drawSprite s ((s.getV x).toNat % 64) ((s.getV y).toNat % 32) sprite).2)).advance

end Sys2Proof.Machine
end

