-- ==== Sys2Proof/Machine/IndexMemory.lean ====
section
/-! DEFINITION. 42_memory_ops.md (ANNN, FX1E, FX29, FX55, FX65) and 45_bcd.md (FX33). -/

namespace Sys2Proof.Machine

/-- `LD I, addr` (R150). -/
def execLdI (nnn : Addr12) (s : State) : Host.Outcome State Fault Refusal :=
  .next (s.setI (zext12 nnn)).advance

/-- `ADD I, Vx` (R151): modulo 0x10000, VF not written. -/
def execAddI (x : RegIdx) (s : State) : Host.Outcome State Fault Refusal :=
  .next (s.setI (s.i + zext8 (s.getV x))).advance

/-- `LD F, Vx` (R152): I <- FONT_BASE + 5 * V[X]. -/
def execLdF (x : RegIdx) (s : State) : Host.Outcome State Fault Refusal :=
  match digitOperand s x with
  | none => raise (.invalidOperand (encode (.ldF x)))
  | some d => .next (s.setI (BitVec.ofNat 16 (s.cfg.fontBase.val + 5 * d.val))).advance

/-- `LD B, Vx` (R190): the decimal digits of V[X] at I, I+1, I+2; I never changes. -/
def execLdB (x : RegIdx) (s : State) : Host.Outcome State Fault Refusal :=
  withWrites s (dataAddr s) (bcdDigits (s.getV x)) fun s' => s'.advance

/-- `LD [I], Vx` (R153): stores V0..VX. -/
def execLdMemX (x : RegIdx) (s : State) : Host.Outcome State Fault Refusal :=
  withWrites s (dataAddr s) (regsUpTo s x) fun s' => (afterAccess s' x).advance

/-- `LD Vx, [I]` (R154): loads V0..VX. -/
def execLdXMem (x : RegIdx) (s : State) : Host.Outcome State Fault Refusal :=
  withReads s (dataAddr s) (x.val + 1) fun bs => (afterAccess (loadRegs s 0 bs) x).advance

end Sys2Proof.Machine
end

