-- ==== Sys2Proof/Machine/Keypad.lean ====
section
/-! DEFINITION. 43_io_keypad.md: EX9E, EXA1, FX0A. They read `key[]` as it stands and never write it (R173). -/

namespace Sys2Proof.Machine

/-- `SKP Vx` (R170). -/
def execSkp (x : RegIdx) (s : State) : Host.Outcome State Fault Refusal :=
  match digitOperand s x with
  | none => raise (.invalidOperand (encode (.skp x)))
  | some k => .next (s.skipIf (s.key k))

/-- `SKNP Vx` (R171). -/
def execSknp (x : RegIdx) (s : State) : Host.Outcome State Fault Refusal :=
  match digitOperand s x with
  | none => raise (.invalidOperand (encode (.sknp x)))
  | some k => .next (s.skipIf (!s.key k))

/-- `LD Vx, K` (R172): the lowest pressed key, or, with no key pressed, a step that succeeds with the state unchanged. The
`Waiting` signal of that step is `waiting` in Machine/HostOps.lean. -/
def execLdXK (x : RegIdx) (s : State) : Host.Outcome State Fault Refusal :=
  match lowestKey s with
  | none => .next s
  | some k => .next (s.setV x (BitVec.ofNat 8 k.val)).advance

end Sys2Proof.Machine
end

