-- ==== Sys2Proof/Machine/RandomTimers.lean ====
section
/-! DEFINITION. 46_random.md (CXNN) and 47_timers.md (FX07, FX15, FX18). -/

namespace Sys2Proof.Machine

/-- `RND Vx, byte` with its draw `r` as an argument (R195): V[X] <- r & NN. -/
def rndWith (r : Byte) (x : RegIdx) (nn : Byte) (s : State) : State := (s.setV x (r &&& nn)).advance

/-- `RND Vx, byte` (R195): the draw is the next free byte. -/
def execRnd (x : RegIdx) (nn : Byte) (s : State) : Host.Outcome State Fault Refusal :=
  .next (rndWith s.draw.1 x nn s.draw.2)

/-- `LD Vx, DT` (R200). -/
def execLdXDt (x : RegIdx) (s : State) : Host.Outcome State Fault Refusal :=
  .next (s.setV x s.dt).advance

/-- `LD DT, Vx` (R201). -/
def execLdDtX (x : RegIdx) (s : State) : Host.Outcome State Fault Refusal :=
  .next (s.setDt (s.getV x)).advance

/-- `LD ST, Vx` (R202). -/
def execLdStX (x : RegIdx) (s : State) : Host.Outcome State Fault Refusal :=
  .next (s.setSt (s.getV x)).advance

end Sys2Proof.Machine
end

