-- ==== Sys2Proof/Machine/Step.lean ====
section
/-! DEFINITION. One step (60_exceptions.md R245): fetch, decode, execute; and placing a word where the next fetch reads. -/

namespace Sys2Proof.Machine

/-- `step()` (R245): the first of the fetch error, the unknown opcode and the instruction's own errors is reported (R232). -/
def step (s : State) : Host.Outcome State Fault Refusal :=
  match fetch s with
  | .error e => raise e
  | .ok w =>
    match decodeWord w with
    | .error _ => raise (.unknownOpcode w)
    | .ok i => exec i s

/-- `s` with a table row's word stored at PC, where `step` fetches its next instruction (log entry 9). -/
def State.withFetchWord (s : State) (nbits w : Nat) : State :=
  s.setBytes s.pc.toNat (bytesOfWord (tableWord nbits w))

end Sys2Proof.Machine
end

