-- ==== Sys2Proof/Machine/HostOps.lean ====
section
/-! DEFINITION. The host interface of 60_exceptions.md R240: the seven operations as functions on State, the `Waiting` signal
of R221, and runs of operations in any order (R246, R247). -/

namespace Sys2Proof.Machine

/-- `reset()` (70_reset_and_hazards.md R261): the values of construction, with `key[]` and the configuration unchanged. The
count of draws goes on, so that later draws are fresh (R195). -/
def State.hostReset (s : State) : State :=
  { State.construct s.cfg with keys := s.keys, draws := s.draws }

/-- The quirks may be set anew at a ROM load (10_state.md R32); `none` leaves them. -/
def State.setQuirks (s : State) (q : Option Quirks) : State :=
  match q with
  | none => s
  | some q' => { s with cfg := { s.cfg with quirks := q' } }

/-- `load_rom(bytes)`: `RomTooLarge` with nothing changed (R263), or the state of R262. -/
def loadRom (bytes : List Byte) (q : Option Quirks) (s : State) : Except Fault State :=
  if Config.romMax < bytes.length then .error (.romTooLarge bytes.length)
  else .ok ((s.setQuirks q).hostReset.setBytes Config.romBase bytes)

/-- `tick_timers()` (R241): both timers count down to 0 and stay there. -/
def State.tickTimers (s : State) : State :=
  { s with dt := if 0 < s.dt.toNat then s.dt - 1 else 0, st := if 0 < s.st.toNat then s.st - 1 else 0 }

/-- `set_key(k, p)` for k in 0..15 (R243). -/
def State.setKey (s : State) (k : Fin 16) (p : Bool) : State := { s with keys := s.keys.set k p }

/-- `sound_active()` (R242): `ST > 0`. -/
def State.soundActive (s : State) : Bool := decide (0 < s.st.toNat)

/-- Whether a step from here returns the `Waiting` signal (R221): the instruction at PC is FX0A and no key is pressed
(R172). -/
def waiting (s : State) : Bool :=
  match fetch s with
  | .error _ => false
  | .ok w =>
    match decodeWord w with
    | .ok (.ldXK _) => (lowestKey s).isNone
    | _ => false

/-- The operations of R240 with their inputs. `loadRom` carries the quirks if they are set anew. -/
inductive HostOp where
  | reset
  | loadRom (bytes : List Byte) (quirks : Option Quirks)
  | step
  | tickTimers
  | setKey (k : Nat) (pressed : Bool)
  | display
  | soundActive
deriving DecidableEq, Repr

/-- What an operation that succeeds returns to the host (R221, R240). -/
inductive Reply where
  /-- No result, or `Ok`. -/
  | done
  /-- `Ok` with the signal `Waiting`. -/
  | waiting
  /-- The pixel grid. -/
  | grid (d : Display)
  /-- Whether the tone sounds. -/
  | sound (on : Bool)
deriving DecidableEq, Repr

/-- An outcome of a state change, with the reply it gives when it succeeds. -/
def withReply (r : Reply) : Host.Outcome State Fault Refusal → Host.Outcome (State × Reply) Fault Refusal
  | .next s => .next (s, r)
  | .fault e => .fault e
  | .refused e => .refused e

/-- One host operation (R240). An error leaves the machine as it was (R221, R263). -/
def hostOp (op : HostOp) (s : State) : Host.Outcome (State × Reply) Fault Refusal :=
  match op with
  | .reset => .next (s.hostReset, .done)
  | .loadRom bytes q =>
    match Sys2Proof.Machine.loadRom bytes q s with
    | .error e => .fault e
    | .ok s' => .next (s', .done)
  | .step => withReply (if Sys2Proof.Machine.waiting s then .waiting else .done) (Sys2Proof.Machine.step s)
  | .tickTimers => .next (s.tickTimers, .done)
  | .setKey k p => if h : k < 16 then .next (s.setKey ⟨k, h⟩ p, .done) else .refused (.keyIndexOutOfRange k)
  | .display => .next (s, .grid s.disp)
  | .soundActive => .next (s, .sound s.soundActive)

/-- A run of host operations in the order given (R246, R247: any order is admitted). It ends at the first error of a step or
refused move (R222); a ROM that is too large leaves the machine as it was and the host goes on (R229, R263). -/
def runOps : List HostOp → State → Host.Outcome State Fault Refusal
  | [], s => .next s
  | op :: rest, s =>
    match hostOp op s with
    | .next (s', _) => runOps rest s'
    | .fault (.romTooLarge _) => runOps rest s
    | .fault e => .fault e
    | .refused e => .refused e

end Sys2Proof.Machine
end

