-- ==== Sys2Proof/Safety.lean ====
section
/-! DEFINITION. What counts as a safe run and a good state, and the vocabulary in which statements speak of what an
instruction changes and leaves. -/

namespace Sys2Proof.Machine

/-- The step succeeds (R221 `Ok`, with or without `Waiting`). -/
def stepsOk (s : State) : Prop := ∃ t, step s = .next t

/-- `t` is reached from `s` by steps that all succeed. -/
inductive Reaches : State → State → Prop where
  | refl (s : State) : Reaches s s
  | step {s t u : State} : Reaches s t → Sys2Proof.Machine.step t = .next u → Reaches s u

/-- The invariant of the machine: memory is in canonical form with nothing listed in the reserved area (so the font is in
place, R68), PC is at most 0x10FE (R24), and every live stack entry is an even address up to 0x1000, since only 2NNN pushes
and it pushes PC + 2 of an instruction that was fetched (R132, R55). -/
structure Inv (s : State) : Prop where
  memWf : Memory.wf s.cfg.fontBase.val s.mem = true
  reservedClean : ∀ c ∈ s.mem, 0x1FF < c.1
  pcBound : s.pc.toNat ≤ 0x10FE
  stackLive : ∀ k : Fin 16, k.val < s.sp.val → (s.stack.get k).toNat % 2 = 0 ∧ (s.stack.get k).toNat ≤ 0x1000

/-- Every V register outside the list is unchanged. -/
def regsSame (except : List RegIdx) (s t : State) : Prop := ∀ r : RegIdx, r ∉ except → t.getV r = s.getV r

/-- Every byte of memory is unchanged. -/
def memSame (s t : State) : Prop := ∀ a : Nat, t.byte a = s.byte a

/-- SP and every stack entry are unchanged. -/
def stackSame (s t : State) : Prop := t.sp = s.sp ∧ ∀ k : Fin 16, t.stack.get k = s.stack.get k

/-- Every pixel is unchanged. -/
def dispSame (s t : State) : Prop := ∀ (x : Fin 64) (y : Fin 32), t.pixel x y = s.pixel x y

/-- Both timers are unchanged. -/
def timersSame (s t : State) : Prop := t.dt = s.dt ∧ t.st = s.st

/-- What no instruction writes: `key[]` (R173) and the configuration (R32). -/
def fixedSame (s t : State) : Prop := t.keys = s.keys ∧ t.cfg = s.cfg

/-- No random draw was taken. -/
def drawsSame (s t : State) : Prop := t.draws = s.draws

/-- Everything but PC and the V registers listed is unchanged: the other registers, I, memory, stack, display, timers, keys,
configuration and the count of draws. -/
def onlyRegs (except : List RegIdx) (s t : State) : Prop :=
  regsSame except s t ∧ t.i = s.i ∧ memSame s t ∧ stackSame s t ∧ dispSame s t ∧ timersSame s t ∧ fixedSame s t ∧
    drawsSame s t

/-- Everything but PC and I is unchanged. -/
def onlyIndex (s t : State) : Prop :=
  regsSame [] s t ∧ memSame s t ∧ stackSame s t ∧ dispSame s t ∧ timersSame s t ∧ fixedSame s t ∧ drawsSame s t

/-- Everything but PC, I and memory is unchanged. -/
def onlyIndexMem (s t : State) : Prop :=
  regsSame [] s t ∧ stackSame s t ∧ dispSame s t ∧ timersSame s t ∧ fixedSame s t ∧ drawsSame s t

/-- Two states that differ at most in stack entries at or above SP, which no program can observe (10_state.md R27). -/
def sameButDeadStack (s t : State) : Prop :=
  { t with stack := s.stack } = s ∧ ∀ k : Fin 16, k.val < s.sp.val → t.stack.get k = s.stack.get k

/-- The illegal words of 30_encoding.md R91, in plain arithmetic on the word. -/
def illegalWord (w : Word) : Prop :=
  (w.toNat / 4096 = 0x0 ∧ w.toNat ≠ 0x00E0 ∧ w.toNat ≠ 0x00EE) ∨
  (w.toNat / 4096 = 0x5 ∧ w.toNat % 16 ≠ 0) ∨ (w.toNat / 4096 = 0x9 ∧ w.toNat % 16 ≠ 0) ∨
  (w.toNat / 4096 = 0x8 ∧ w.toNat % 16 ∈ [0x8, 0x9, 0xA, 0xB, 0xC, 0xD, 0xF]) ∨
  (w.toNat / 4096 = 0xE ∧ w.toNat % 256 ∉ [0x9E, 0xA1]) ∨
  (w.toNat / 4096 = 0xF ∧ w.toNat % 256 ∉ [0x07, 0x0A, 0x15, 0x18, 0x1E, 0x29, 0x33, 0x55, 0x65])

/-- The sprite of `DRW Vx, Vy, n` in state `s` has a set bit that lands on pixel (cx, cy): bit 7 - c of row r, at column
(x0 + c) mod 64, and at row y0 + r, which past the bottom edge is clipped under `Q_CLIP_V` and wraps otherwise (R181). -/
def spriteCovers (s : State) (x y : RegIdx) (n : Nibble) (cx : Fin 64) (cy : Fin 32) : Prop :=
  ∃ r c : Nat, r < n.toNat ∧ c < 8 ∧ (s.byte (s.i.toNat + r)).getLsbD (7 - c) = true ∧
    cx.val = ((s.getV x).toNat % 64 + c) % 64 ∧
    (((s.getV y).toNat % 32 + r < 32 ∧ cy.val = (s.getV y).toNat % 32 + r) ∨
      (32 ≤ (s.getV y).toNat % 32 + r ∧ s.cfg.quirks.clipV = false ∧ cy.val = ((s.getV y).toNat % 32 + r) % 32))

/-- The instructions that write a flag to VF (10_state.md R22). -/
def writesFlag : Instr → Bool
  | .addReg _ _ | .sub _ _ | .subn _ _ | .shr _ _ | .shl _ _ | .drw _ _ _ => true
  | .cls | .ret | .sys _ | .jp _ | .call _ | .seImm _ _ | .sneImm _ _ | .seReg _ _ | .ldImm _ _ | .addImm _ _
  | .ldReg _ _ | .or _ _ | .and _ _ | .xor _ _ | .sneReg _ _ | .ldI _ | .jpV0 _ | .rnd _ _ | .skp _ | .sknp _
  | .ldXDt _ | .ldXK _ | .ldDtX _ | .ldStX _ | .addI _ | .ldF _ | .ldB _ | .ldMemX _ | .ldXMem _ => false

/-- The registers an instruction names as its destination (10_state.md R21): written as Vx, or as V0..VX by FX65. -/
def namesDest : Instr → RegIdx → Bool
  | .ldImm x _, r | .addImm x _, r | .ldReg x _, r | .or x _, r | .and x _, r | .xor x _, r | .addReg x _, r
  | .sub x _, r | .shr x _, r | .subn x _, r | .shl x _, r | .rnd x _, r | .ldXDt x, r | .ldXK x, r => r == x
  | .ldXMem x, r => decide (r ≤ x)
  | .cls, _ | .ret, _ | .sys _, _ | .jp _, _ | .call _, _ | .seImm _ _, _ | .sneImm _ _, _ | .seReg _ _, _
  | .sneReg _ _, _ | .ldI _, _ | .jpV0 _, _ | .drw _ _ _, _ | .skp _, _ | .sknp _, _ | .ldDtX _, _ | .ldStX _, _
  | .addI _, _ | .ldF _, _ | .ldB _, _ | .ldMemX _, _ => false

/-- The instructions that read `key[]` (10_state.md R29). -/
def readsKeys : Instr → Bool
  | .skp _ | .sknp _ | .ldXK _ => true
  | .cls | .ret | .sys _ | .jp _ | .call _ | .seImm _ _ | .sneImm _ _ | .seReg _ _ | .ldImm _ _ | .addImm _ _
  | .ldReg _ _ | .or _ _ | .and _ _ | .xor _ _ | .addReg _ _ | .sub _ _ | .shr _ _ | .subn _ _ | .shl _ _
  | .sneReg _ _ | .ldI _ | .jpV0 _ | .rnd _ _ | .drw _ _ _ | .ldXDt _ | .ldDtX _ | .ldStX _ | .addI _ | .ldF _
  | .ldB _ | .ldMemX _ | .ldXMem _ => false

/-- An outcome with its next state changed. -/
def mapNext (f : State → State) : Host.Outcome State Fault Refusal → Host.Outcome State Fault Refusal
  | .next t => .next (f t)
  | .fault e => .fault e
  | .refused e => .refused e

end Sys2Proof.Machine
end

