-- ==== Sys2Proof/Certificates/Slice0/Obligations.lean ====
section
/-! DEFINITION. The statements for the provers, from the numbered rules of spec/. Register results are stated in plain
arithmetic; frames use the vocabulary of Safety.lean. No statement rests on a value of `Config.freeByte` or on a default of
the configuration. -/

open Sys2Proof Sys2Proof.Machine

/-! ### Encoding -/

/-- R81, R82, R85: decoding the word of a well-formed instruction gives the instruction back, every operand included. -/
def Obligations.EncodeThenDecode : Prop :=
  ∀ i : Instr, i.wellFormed = true → decodeWord (encode i) = .ok i

/-- R81, R82, R85: a word that decodes is the word of the instruction it decodes to, which is well formed: each word has one
meaning and no bit of it is dropped. -/
def Obligations.DecodeThenEncode : Prop :=
  ∀ (w : Word) (i : Instr), decodeWord w = .ok i → encode i = w ∧ i.wellFormed = true

/-- R85, R91: the decoder refuses or gives SYS for exactly the illegal words, and refuses by the word itself. -/
def Obligations.IllegalWordsAreTheListed : Prop :=
  ∀ w : Word, illegalWord w ↔ (decodeWord w = .error (.unknown w) ∨ ∃ nnn, decodeWord w = .ok (.sys nnn))

/-- R96 and the table of R95: words written out from the spec's encodings decode to the instructions they stand for. -/
def Obligations.SpecWordsDecode : Prop :=
  decodeWord 0x8374 = .ok (.addReg 3 7) ∧ decodeWord 0x602A = .ok (.ldImm 0 0x2A) ∧
  decodeWord 0x1200 = .ok (.jp 0x200) ∧ decodeWord 0xD125 = .ok (.drw 1 2 5) ∧
  decodeWord 0xF555 = .ok (.ldMemX 5) ∧ decodeWord 0x8A06 = .ok (.shr 0xA 0) ∧
  bytesOfWord 0x8374 = [0x83, 0x74] ∧ decodeWord 0xE5A1 = .ok (.sknp 5) ∧ decodeWord 0xF733 = .ok (.ldB 7) ∧
  decodeWord 0xC20F = .ok (.rnd 2 0x0F) ∧ decodeWord 0xF218 = .ok (.ldStX 2)

/-! ### Fetch and step -/

/-- R55: an odd PC, or PC + 1 past 0xFFF, makes the step fail with InvalidFetch(PC); otherwise the fetch reads the two bytes
at PC as one big-endian word. -/
def Obligations.FetchChecksThenReadsBigEndian : Prop :=
  ∀ s : State,
    ((s.pc.toNat % 2 ≠ 0 ∨ 0xFFF < s.pc.toNat + 1) → step s = .fault (.invalidFetch s.pc)) ∧
    (s.pc.toNat % 2 = 0 → s.pc.toNat + 1 ≤ 0xFFF → ∃ w, fetch s = .ok w ∧
      w.toNat = 256 * (s.byte s.pc.toNat).toNat + (s.byte (s.pc.toNat + 1)).toNat)

/-- R245: when the two bytes at an even PC in memory decode to an instruction, the step is that instruction's execution at
this very state; nothing is added around it (R13). -/
def Obligations.StepRunsDecodedInstr : Prop :=
  ∀ (s : State) (i : Instr), s.pc.toNat % 2 = 0 → s.pc.toNat + 1 ≤ 0xFFF →
    decodeBytes [s.byte s.pc.toNat, s.byte (s.pc.toNat + 1)] = .ok (i, []) → step s = exec i s

/-- R223, R91: a step that fetches an illegal word fails with UnknownOpcode of that whole word. -/
def Obligations.IllegalWordStepsToUnknownOpcode : Prop :=
  ∀ (s : State) (w : Word), fetch s = .ok w → illegalWord w → step s = .fault (.unknownOpcode w)

/-- R221: a step succeeds or fails with one error of codes 2 to 8; it is never refused. -/
def Obligations.StepSucceedsOrRaisesStepError : Prop :=
  ∀ s : State, stepsOk s ∨ ∃ e, step s = .fault e ∧ 2 ≤ e.code ∧ e.code ≤ 8

/-- R139: SYS is class 0 with any address and always raises UnknownOpcode of its own word. -/
def Obligations.SysRaisesUnknownOpcode : Prop :=
  ∀ (nnn : Addr12) (s : State), (encode (.sys nnn)).toNat = nnn.toNat ∧
    exec (.sys nnn) s = .fault (.unknownOpcode (encode (.sys nnn)))

/-! ### Arithmetic and logic -/

/-- R100, R102 to R105: the loads and the logic operations write V[X] alone and advance PC by 2. -/
def Obligations.LoadsAndLogicWriteVx : Prop :=
  ∀ (x y : RegIdx) (nn : Byte) (s : State),
    ((encode (.ldImm x nn)).toNat = 0x6000 + 256 * x.val + nn.toNat ∧
      ∃ t, exec (.ldImm x nn) s = .next t ∧ t.getV x = nn ∧ t.pc = s.pc + 2 ∧ onlyRegs [x] s t) ∧
    ((encode (.ldReg x y)).toNat = 0x8000 + 256 * x.val + 16 * y.val ∧
      ∃ t, exec (.ldReg x y) s = .next t ∧ t.getV x = s.getV y ∧ t.pc = s.pc + 2 ∧ onlyRegs [x] s t) ∧
    ((encode (.or x y)).toNat = 0x8001 + 256 * x.val + 16 * y.val ∧
      ∃ t, exec (.or x y) s = .next t ∧ (t.getV x).toNat = (s.getV x).toNat ||| (s.getV y).toNat ∧ t.pc = s.pc + 2 ∧
        onlyRegs [x] s t) ∧
    ((encode (.and x y)).toNat = 0x8002 + 256 * x.val + 16 * y.val ∧
      ∃ t, exec (.and x y) s = .next t ∧ (t.getV x).toNat = (s.getV x).toNat &&& (s.getV y).toNat ∧ t.pc = s.pc + 2 ∧
        onlyRegs [x] s t) ∧
    ((encode (.xor x y)).toNat = 0x8003 + 256 * x.val + 16 * y.val ∧
      ∃ t, exec (.xor x y) s = .next t ∧ (t.getV x).toNat = (s.getV x).toNat ^^^ (s.getV y).toNat ∧ t.pc = s.pc + 2 ∧
        onlyRegs [x] s t)

/-- R101: 7XNN adds modulo 256 and writes no flag. -/
def Obligations.AddImmWrapsWithoutFlag : Prop :=
  ∀ (x : RegIdx) (nn : Byte) (s : State), (encode (.addImm x nn)).toNat = 0x7000 + 256 * x.val + nn.toNat ∧
    ∃ t, exec (.addImm x nn) s = .next t ∧ (t.getV x).toNat = ((s.getV x).toNat + nn.toNat) % 256 ∧
      t.pc = s.pc + 2 ∧ onlyRegs [x] s t

/-- R106 (and R23): the sum modulo 256, then the carry in VF; with X = F the carry remains. -/
def Obligations.AddRegSumAndCarry : Prop :=
  ∀ (x y : RegIdx) (s : State), (encode (.addReg x y)).toNat = 0x8004 + 256 * x.val + 16 * y.val ∧
    ∃ t, exec (.addReg x y) s = .next t ∧
      (x ≠ 15 → (t.getV x).toNat = ((s.getV x).toNat + (s.getV y).toNat) % 256) ∧
      (t.getV 15).toNat = (if 255 < (s.getV x).toNat + (s.getV y).toNat then 1 else 0) ∧
      t.pc = s.pc + 2 ∧ onlyRegs [x, 15] s t

/-- R107 (and R23): the difference Vx - Vy modulo 256, then NOT borrow in VF. -/
def Obligations.SubDifferenceAndNotBorrow : Prop :=
  ∀ (x y : RegIdx) (s : State), (encode (.sub x y)).toNat = 0x8005 + 256 * x.val + 16 * y.val ∧
    ∃ t, exec (.sub x y) s = .next t ∧
      (x ≠ 15 → (t.getV x).toNat = ((s.getV x).toNat + 256 - (s.getV y).toNat) % 256) ∧
      (t.getV 15).toNat = (if (s.getV y).toNat ≤ (s.getV x).toNat then 1 else 0) ∧
      t.pc = s.pc + 2 ∧ onlyRegs [x, 15] s t

/-- R109 (and R23): the difference Vy - Vx modulo 256, then NOT borrow in VF. -/
def Obligations.SubnDifferenceAndNotBorrow : Prop :=
  ∀ (x y : RegIdx) (s : State), (encode (.subn x y)).toNat = 0x8007 + 256 * x.val + 16 * y.val ∧
    ∃ t, exec (.subn x y) s = .next t ∧
      (x ≠ 15 → (t.getV x).toNat = ((s.getV y).toNat + 256 - (s.getV x).toNat) % 256) ∧
      (t.getV 15).toNat = (if (s.getV x).toNat ≤ (s.getV y).toNat then 1 else 0) ∧
      t.pc = s.pc + 2 ∧ onlyRegs [x, 15] s t

/-- R108 (and R23): half the source, then its bit 0 in VF; the source is V[Y] under Q_SHIFT_VY and V[X] otherwise. -/
def Obligations.ShrHalvesAndKeepsBitZero : Prop :=
  ∀ (x y : RegIdx) (s : State), (encode (.shr x y)).toNat = 0x8006 + 256 * x.val + 16 * y.val ∧
    ∃ (src : Byte) (t : State), src = (if s.cfg.quirks.shiftVy = true then s.getV y else s.getV x) ∧
      exec (.shr x y) s = .next t ∧ (x ≠ 15 → (t.getV x).toNat = src.toNat / 2) ∧
      (t.getV 15).toNat = src.toNat % 2 ∧ t.pc = s.pc + 2 ∧ onlyRegs [x, 15] s t

/-- R110 (and R23): twice the source modulo 256, then its bit 7 in VF; the source as in R108. -/
def Obligations.ShlDoublesAndKeepsBitSeven : Prop :=
  ∀ (x y : RegIdx) (s : State), (encode (.shl x y)).toNat = 0x800E + 256 * x.val + 16 * y.val ∧
    ∃ (src : Byte) (t : State), src = (if s.cfg.quirks.shiftVy = true then s.getV y else s.getV x) ∧
      exec (.shl x y) s = .next t ∧ (x ≠ 15 → (t.getV x).toNat = src.toNat * 2 % 256) ∧
      (t.getV 15).toNat = src.toNat / 128 ∧ t.pc = s.pc + 2 ∧ onlyRegs [x, 15] s t

/-! ### Control flow -/

/-- R131, R134: the jumps write PC alone; BNNN's target is NNN plus V0, or plus VX with X the high nibble of NNN under
Q_JUMP_VX, and is not reduced. -/
def Obligations.JumpsWritePcAlone : Prop :=
  ∀ (nnn : Addr12) (s : State),
    ((encode (.jp nnn)).toNat = 0x1000 + nnn.toNat ∧
      ∃ t, exec (.jp nnn) s = .next t ∧ t.pc.toNat = nnn.toNat ∧ onlyRegs [] s t) ∧
    ((encode (.jpV0 nnn)).toNat = 0xB000 + nnn.toNat ∧
      ∃ (r : RegIdx) (t : State), r.val = (if s.cfg.quirks.jumpVx = true then nnn.toNat / 256 else 0) ∧
        exec (.jpV0 nnn) s = .next t ∧ t.pc.toNat = nnn.toNat + (s.getV r).toNat ∧ onlyRegs [] s t)

/-- R132: CALL pushes PC + 2 and jumps; at depth 16 it raises StackOverflow of the address not pushed. -/
def Obligations.CallPushesReturnAddress : Prop :=
  ∀ (nnn : Addr12) (s : State), (encode (.call nnn)).toNat = 0x2000 + nnn.toNat ∧
    (s.sp.val = 16 → exec (.call nnn) s = .fault (.stackOverflow (s.pc + 2))) ∧
    (s.sp.val < 16 → ∃ t, exec (.call nnn) s = .next t ∧ t.sp.val = s.sp.val + 1 ∧
      (∀ k : Fin 16, t.stack.get k = if k.val = s.sp.val then s.pc + 2 else s.stack.get k) ∧
      t.pc.toNat = nnn.toNat ∧ regsSame [] s t ∧ t.i = s.i ∧ memSame s t ∧ dispSame s t ∧ timersSame s t ∧
      fixedSame s t ∧ drawsSame s t)

/-- R133: RET sets PC to the popped address with nothing added; on an empty stack it raises StackUnderflow. -/
def Obligations.RetPopsReturnAddress : Prop :=
  ∀ s : State, (encode .ret).toNat = 0x00EE ∧
    (s.sp.val = 0 → exec .ret s = .fault .stackUnderflow) ∧
    (0 < s.sp.val → ∃ t, exec .ret s = .next t ∧ t.sp.val + 1 = s.sp.val ∧
      (∀ k : Fin 16, k.val + 1 = s.sp.val → t.pc = s.stack.get k) ∧
      (∀ k : Fin 16, t.stack.get k = s.stack.get k) ∧ regsSame [] s t ∧ t.i = s.i ∧ memSame s t ∧ dispSame s t ∧
      timersSame s t ∧ fixedSame s t ∧ drawsSame s t)

/-- R132, R133: a RET right after a CALL comes back to the word after the CALL, with every observable piece of state as
before it. -/
def Obligations.RetUndoesCall : Prop :=
  ∀ (nnn : Addr12) (s : State), s.sp.val < 16 → ∃ t u, exec (.call nnn) s = .next t ∧ exec .ret t = .next u ∧
    sameButDeadStack (s.setPc (s.pc + 2)) u

/-- R135 to R138: a register skip writes PC + 4 when its condition holds and PC + 2 otherwise, and nothing else. -/
def Obligations.SkipsWritePcAlone : Prop :=
  ∀ (x y : RegIdx) (nn : Byte) (s : State),
    ((encode (.seImm x nn)).toNat = 0x3000 + 256 * x.val + nn.toNat ∧
      ∃ t, exec (.seImm x nn) s = .next t ∧ t.pc = (if s.getV x = nn then s.pc + 4 else s.pc + 2) ∧ onlyRegs [] s t) ∧
    ((encode (.sneImm x nn)).toNat = 0x4000 + 256 * x.val + nn.toNat ∧
      ∃ t, exec (.sneImm x nn) s = .next t ∧ t.pc = (if s.getV x ≠ nn then s.pc + 4 else s.pc + 2) ∧ onlyRegs [] s t) ∧
    ((encode (.seReg x y)).toNat = 0x5000 + 256 * x.val + 16 * y.val ∧
      ∃ t, exec (.seReg x y) s = .next t ∧ t.pc = (if s.getV x = s.getV y then s.pc + 4 else s.pc + 2) ∧
        onlyRegs [] s t) ∧
    ((encode (.sneReg x y)).toNat = 0x9000 + 256 * x.val + 16 * y.val ∧
      ∃ t, exec (.sneReg x y) s = .next t ∧ t.pc = (if s.getV x ≠ s.getV y then s.pc + 4 else s.pc + 2) ∧
        onlyRegs [] s t)

/-! ### Index register and memory -/

/-- R150, R151: ANNN loads I; FX1E adds V[X] to I modulo 0x10000 and leaves VF. -/
def Obligations.IndexLoadsAndAdds : Prop :=
  ∀ (nnn : Addr12) (x : RegIdx) (s : State),
    ((encode (.ldI nnn)).toNat = 0xA000 + nnn.toNat ∧
      ∃ t, exec (.ldI nnn) s = .next t ∧ t.i.toNat = nnn.toNat ∧ t.pc = s.pc + 2 ∧ onlyIndex s t) ∧
    ((encode (.addI x)).toNat = 0xF01E + 256 * x.val ∧
      ∃ t, exec (.addI x) s = .next t ∧ t.i.toNat = (s.i.toNat + (s.getV x).toNat) % 0x10000 ∧ t.pc = s.pc + 2 ∧
        onlyIndex s t)

/-- R152: FX29 points I at glyph V[X] of the font; V[X] above 15 raises InvalidOperand of the word. -/
def Obligations.FontPointerOrInvalidOperand : Prop :=
  ∀ (x : RegIdx) (s : State), (encode (.ldF x)).toNat = 0xF029 + 256 * x.val ∧
    (0xF < (s.getV x).toNat → exec (.ldF x) s = .fault (.invalidOperand (encode (.ldF x)))) ∧
    ((s.getV x).toNat ≤ 0xF → ∃ t, exec (.ldF x) s = .next t ∧
      t.i.toNat = s.cfg.fontBase.val + 5 * (s.getV x).toNat ∧ t.pc = s.pc + 2 ∧ onlyIndex s t)

/-- R153: FX55 stores V0..VX at I..I+X, moves I by X + 1 under the quirk only, and touches no other byte; the first address
out of range or reserved stops it with that address. -/
def Obligations.StoreRegisters : Prop :=
  ∀ (x : RegIdx) (s : State), (encode (.ldMemX x)).toNat = 0xF055 + 256 * x.val ∧
    (∀ k : Nat, k ≤ x.val → 0xFFF < s.i.toNat + k → (∀ j < k, s.i.toNat + j ≤ 0xFFF) →
      exec (.ldMemX x) s = .fault (.memoryOutOfBounds (s.i.toNat + k))) ∧
    (s.i.toNat ≤ 0x1FF → exec (.ldMemX x) s = .fault (.reservedWrite s.i.toNat)) ∧
    (0x1FF < s.i.toNat → s.i.toNat + x.val ≤ 0xFFF → Memory.wf s.cfg.fontBase.val s.mem = true →
      ∃ t, exec (.ldMemX x) s = .next t ∧
        (∀ k : RegIdx, k ≤ x → t.byte (s.i.toNat + k.val) = s.getV k) ∧
        (∀ a : Nat, a < s.i.toNat ∨ s.i.toNat + x.val < a → t.byte a = s.byte a) ∧
        t.i.toNat = (if s.cfg.quirks.loadStoreIncI = true then s.i.toNat + x.val + 1 else s.i.toNat) ∧
        t.pc = s.pc + 2 ∧ onlyIndexMem s t)

/-- R154: FX65 loads V0..VX from I..I+X, moves I as FX55 does, and leaves memory; the first address out of range stops it. -/
def Obligations.LoadRegisters : Prop :=
  ∀ (x : RegIdx) (s : State), (encode (.ldXMem x)).toNat = 0xF065 + 256 * x.val ∧
    (∀ k : Nat, k ≤ x.val → 0xFFF < s.i.toNat + k → (∀ j < k, s.i.toNat + j ≤ 0xFFF) →
      exec (.ldXMem x) s = .fault (.memoryOutOfBounds (s.i.toNat + k))) ∧
    (s.i.toNat + x.val ≤ 0xFFF → ∃ t, exec (.ldXMem x) s = .next t ∧
      (∀ k : RegIdx, t.getV k = if k ≤ x then s.byte (s.i.toNat + k.val) else s.getV k) ∧
      t.i.toNat = (if s.cfg.quirks.loadStoreIncI = true then s.i.toNat + x.val + 1 else s.i.toNat) ∧
      t.pc = s.pc + 2 ∧ memSame s t ∧ stackSame s t ∧ dispSame s t ∧ timersSame s t ∧ fixedSame s t ∧ drawsSame s t)

/-- R190: FX33 stores the hundreds, tens and ones of V[X] at I, I+1, I+2 and never moves I; the first address out of range
or reserved stops it. -/
def Obligations.DecimalDigitsStored : Prop :=
  ∀ (x : RegIdx) (s : State), (encode (.ldB x)).toNat = 0xF033 + 256 * x.val ∧
    (∀ k : Nat, k ≤ 2 → 0xFFF < s.i.toNat + k → (∀ j < k, s.i.toNat + j ≤ 0xFFF) →
      exec (.ldB x) s = .fault (.memoryOutOfBounds (s.i.toNat + k))) ∧
    (s.i.toNat ≤ 0x1FF → exec (.ldB x) s = .fault (.reservedWrite s.i.toNat)) ∧
    (0x1FF < s.i.toNat → s.i.toNat + 2 ≤ 0xFFF → Memory.wf s.cfg.fontBase.val s.mem = true →
      ∃ t, exec (.ldB x) s = .next t ∧
        (t.byte s.i.toNat).toNat = (s.getV x).toNat / 100 ∧
        (t.byte (s.i.toNat + 1)).toNat = (s.getV x).toNat / 10 % 10 ∧
        (t.byte (s.i.toNat + 2)).toNat = (s.getV x).toNat % 10 ∧
        (∀ a : Nat, a < s.i.toNat ∨ s.i.toNat + 2 < a → t.byte a = s.byte a) ∧
        t.i = s.i ∧ t.pc = s.pc + 2 ∧ onlyIndexMem s t)

/-- R153, R154: what FX55 stored, FX65 of the same X at the same I loads back, whatever the registers held in between. -/
def Obligations.LoadRestoresStored : Prop :=
  ∀ (x : RegIdx) (s t u : State), Memory.wf s.cfg.fontBase.val s.mem = true → exec (.ldMemX x) s = .next t →
    u.mem = t.mem → u.cfg = t.cfg → u.i = s.i →
    ∃ w, exec (.ldXMem x) u = .next w ∧ ∀ k : RegIdx, k ≤ x → w.getV k = s.getV k

/-- R66: a word stored by FX55 is the word that the next fetch at its address reads. -/
def Obligations.StoredWordIsFetched : Prop :=
  ∀ (x k k' : RegIdx) (s t : State), Memory.wf s.cfg.fontBase.val s.mem = true → exec (.ldMemX x) s = .next t →
    k'.val = k.val + 1 → k' ≤ x → (s.i.toNat + k.val) % 2 = 0 →
    ∃ w, fetch (t.setPc (BitVec.ofNat 16 (s.i.toNat + k.val))) = .ok w ∧
      w.toNat = 256 * (s.getV k).toNat + (s.getV k').toNat

/-! ### Keypad -/

/-- R170, R171: the key skips test key V[X] and write PC alone; V[X] above 15 raises InvalidOperand of the word. -/
def Obligations.KeySkips : Prop :=
  ∀ (x : RegIdx) (s : State),
    (encode (.skp x)).toNat = 0xE09E + 256 * x.val ∧ (encode (.sknp x)).toNat = 0xE0A1 + 256 * x.val ∧
    (0xF < (s.getV x).toNat → exec (.skp x) s = .fault (.invalidOperand (encode (.skp x))) ∧
      exec (.sknp x) s = .fault (.invalidOperand (encode (.sknp x)))) ∧
    (∀ k : Fin 16, (s.getV x).toNat = k.val →
      (∃ t, exec (.skp x) s = .next t ∧ t.pc = (if s.key k = true then s.pc + 4 else s.pc + 2) ∧ onlyRegs [] s t) ∧
      (∃ t, exec (.sknp x) s = .next t ∧ t.pc = (if s.key k = false then s.pc + 4 else s.pc + 2) ∧ onlyRegs [] s t))

/-- R172: FX0A takes the lowest pressed key; with no key pressed the step succeeds, signals Waiting and changes nothing. -/
def Obligations.KeyWaitTakesLowestOrWaits : Prop :=
  ∀ (x : RegIdx) (s : State), (encode (.ldXK x)).toNat = 0xF00A + 256 * x.val ∧
    (∀ k : Fin 16, s.key k = true → (∀ j : Fin 16, j < k → s.key j = false) →
      ∃ t, exec (.ldXK x) s = .next t ∧ (t.getV x).toNat = k.val ∧ t.pc = s.pc + 2 ∧ onlyRegs [x] s t) ∧
    ((∀ k : Fin 16, s.key k = false) → exec (.ldXK x) s = .next s ∧
      (fetch s = .ok (encode (.ldXK x)) → hostOp .step s = .next (s, .waiting)))

/-- R221, R240: the host operation step() signals Waiting exactly when the word it fetches is an FX0A and no key is pressed,
with the state as it was; any other step that succeeds is answered `Ok` with the step's state, and a step's error is handed
on. -/
def Obligations.WaitingOnlyFromKeyWait : Prop :=
  ∀ s : State,
    (∀ t, hostOp .step s = .next (t, .waiting) ↔
      t = s ∧ (∀ k : Fin 16, s.key k = false) ∧ ∃ w x, fetch s = .ok w ∧ decodeWord w = .ok (.ldXK x)) ∧
    (∀ t, step s = .next t →
      ¬((∀ k : Fin 16, s.key k = false) ∧ ∃ w x, fetch s = .ok w ∧ decodeWord w = .ok (.ldXK x)) →
      hostOp .step s = .next (t, .done)) ∧
    (∀ e, step s = .fault e → hostOp .step s = .fault e)

/-! ### Display -/

/-- R180: CLS turns every pixel off and writes nothing else but PC. -/
def Obligations.ClsClearsEveryPixel : Prop :=
  ∀ s : State, (encode .cls).toNat = 0x00E0 ∧
    ∃ t, exec .cls s = .next t ∧ (∀ (x : Fin 64) (y : Fin 32), t.pixel x y = false) ∧ t.pc = s.pc + 2 ∧
      regsSame [] s t ∧ t.i = s.i ∧ memSame s t ∧ stackSame s t ∧ timersSame s t ∧ fixedSame s t ∧ drawsSame s t

/-- R181, R182: DXYN toggles exactly the pixels its set bits land on, and VF is 1 exactly when one of them was set; the
first address out of range stops it. -/
def Obligations.DrawTogglesCoveredPixels : Prop :=
  ∀ (x y : RegIdx) (n : Nibble) (s : State),
    (encode (.drw x y n)).toNat = 0xD000 + 256 * x.val + 16 * y.val + n.toNat ∧
    (∀ r : Nat, r < n.toNat → 0xFFF < s.i.toNat + r → (∀ j < r, s.i.toNat + j ≤ 0xFFF) →
      exec (.drw x y n) s = .fault (.memoryOutOfBounds (s.i.toNat + r))) ∧
    ((∀ r < n.toNat, s.i.toNat + r ≤ 0xFFF) → ∃ t, exec (.drw x y n) s = .next t ∧
      (∀ (cx : Fin 64) (cy : Fin 32), spriteCovers s x y n cx cy → t.pixel cx cy = !s.pixel cx cy) ∧
      (∀ (cx : Fin 64) (cy : Fin 32), ¬spriteCovers s x y n cx cy → t.pixel cx cy = s.pixel cx cy) ∧
      ((∃ cx cy, spriteCovers s x y n cx cy ∧ s.pixel cx cy = true) → t.getV 15 = 1) ∧
      ((¬∃ cx cy, spriteCovers s x y n cx cy ∧ s.pixel cx cy = true) → t.getV 15 = 0) ∧
      t.pc = s.pc + 2 ∧ regsSame [15] s t ∧ t.i = s.i ∧ memSame s t ∧ stackSame s t ∧ timersSame s t ∧
      fixedSame s t ∧ drawsSame s t)

/-- R183: drawing the same sprite at the same place again restores every pixel; on a place that was clear the second draw
sets VF exactly when some set bit lands on the screen, and a sprite with none gives VF = 0 both times. X and Y other than F,
since the first draw writes VF. -/
def Obligations.DrawTwiceRestores : Prop :=
  ∀ (x y : RegIdx) (n : Nibble) (s t : State), x ≠ 15 → y ≠ 15 → exec (.drw x y n) s = .next t →
    ∃ u, exec (.drw x y n) t = .next u ∧ (∀ (cx : Fin 64) (cy : Fin 32), u.pixel cx cy = s.pixel cx cy) ∧
      ((∀ cx cy, spriteCovers s x y n cx cy → s.pixel cx cy = false) →
        (u.getV 15 = 1 ↔ ∃ cx cy, spriteCovers s x y n cx cy)) ∧
      ((∀ cx cy, ¬spriteCovers s x y n cx cy) → t.getV 15 = 0 ∧ u.getV 15 = 0)

/-! ### Random draw and timers -/

/-- R195: CXNN takes one fresh draw r and writes r AND NN; the statement holds whatever the draw is. -/
def Obligations.RndMasksFreshDraw : Prop :=
  ∀ (x : RegIdx) (nn : Byte) (s : State), (encode (.rnd x nn)).toNat = 0xC000 + 256 * x.val + nn.toNat ∧
    (∀ (r : Byte) (u : State), (rndWith r x nn u).getV x = r &&& nn ∧ (rndWith r x nn u).pc = u.pc + 2 ∧
      onlyRegs [x] u (rndWith r x nn u)) ∧
    exec (.rnd x nn) s = .next (rndWith (Config.freeByte s.draws) x nn { s with draws := s.draws + 1 })

/-- R200 to R202: FX07 reads DT; FX15 and FX18 set DT and ST from V[X]. -/
def Obligations.TimerInstructions : Prop :=
  ∀ (x : RegIdx) (s : State),
    ((encode (.ldXDt x)).toNat = 0xF007 + 256 * x.val ∧
      ∃ t, exec (.ldXDt x) s = .next t ∧ t.getV x = s.dt ∧ t.pc = s.pc + 2 ∧ onlyRegs [x] s t) ∧
    ((encode (.ldDtX x)).toNat = 0xF015 + 256 * x.val ∧
      ∃ t, exec (.ldDtX x) s = .next t ∧ t.dt = s.getV x ∧ t.st = s.st ∧ t.pc = s.pc + 2 ∧ regsSame [] s t ∧
        t.i = s.i ∧ memSame s t ∧ stackSame s t ∧ dispSame s t ∧ fixedSame s t ∧ drawsSame s t) ∧
    ((encode (.ldStX x)).toNat = 0xF018 + 256 * x.val ∧
      ∃ t, exec (.ldStX x) s = .next t ∧ t.st = s.getV x ∧ t.dt = s.dt ∧ t.pc = s.pc + 2 ∧ regsSame [] s t ∧
        t.i = s.i ∧ memSame s t ∧ stackSame s t ∧ dispSame s t ∧ fixedSame s t ∧ drawsSame s t)

/-- R240, R241: the host operation tick_timers() is answered without a result, and after n calls of it each timer has gone
down by n and is held at 0, and nothing else has changed. -/
def Obligations.TimersCountDownToZero : Prop :=
  ∀ (n : Nat) (s : State), hostOp .tickTimers s = .next (s.tickTimers, .done) ∧
    ∃ t, runOps (List.replicate n .tickTimers) s = .next t ∧ t = State.tickTimers^[n] s ∧
      t.dt.toNat = s.dt.toNat - n ∧ t.st.toNat = s.st.toNat - n ∧ t = { s with dt := t.dt, st := t.st }

/-! ### Reset and the host interface -/

/-- R260, R36: a constructed machine, for every legal configuration; State.reset is one of them. -/
def Obligations.ConstructionValues : Prop :=
  (∀ cfg : Config, (∀ r, (State.construct cfg).getV r = 0) ∧ (State.construct cfg).i = 0 ∧
    (State.construct cfg).pc = 0x200 ∧ (State.construct cfg).sp = 0 ∧ (State.construct cfg).dt = 0 ∧
    (State.construct cfg).st = 0 ∧ (∀ x y, (State.construct cfg).pixel x y = false) ∧
    (∀ k, (State.construct cfg).key k = false) ∧
    (∀ k : Fin 80, (State.construct cfg).byte (cfg.fontBase.val + k.val) = Config.fontData.getD k.val 0) ∧
    (∀ a : Nat, a < cfg.fontBase.val ∨ cfg.fontBase.val + 80 ≤ a → (State.construct cfg).byte a = 0) ∧
    (State.construct cfg).cfg = cfg) ∧
  ∃ cfg, State.reset = State.construct cfg

/-- R31: the five bytes at FONT_BASE + 5*d of a constructed machine are glyph d of the spec's table, for each of the 16
digits, and the low four bits of every font byte are zero. -/
def Obligations.FontGlyphsInPlace : Prop :=
  ∀ cfg : Config,
    (State.construct cfg).bytes cfg.fontBase.val 5 = [0xF0, 0x90, 0x90, 0x90, 0xF0] ∧
    (State.construct cfg).bytes (cfg.fontBase.val + 5) 5 = [0x20, 0x60, 0x20, 0x20, 0x70] ∧
    (State.construct cfg).bytes (cfg.fontBase.val + 10) 5 = [0xF0, 0x10, 0xF0, 0x80, 0xF0] ∧
    (State.construct cfg).bytes (cfg.fontBase.val + 15) 5 = [0xF0, 0x10, 0xF0, 0x10, 0xF0] ∧
    (State.construct cfg).bytes (cfg.fontBase.val + 20) 5 = [0x90, 0x90, 0xF0, 0x10, 0x10] ∧
    (State.construct cfg).bytes (cfg.fontBase.val + 25) 5 = [0xF0, 0x80, 0xF0, 0x10, 0xF0] ∧
    (State.construct cfg).bytes (cfg.fontBase.val + 30) 5 = [0xF0, 0x80, 0xF0, 0x90, 0xF0] ∧
    (State.construct cfg).bytes (cfg.fontBase.val + 35) 5 = [0xF0, 0x10, 0x20, 0x40, 0x40] ∧
    (State.construct cfg).bytes (cfg.fontBase.val + 40) 5 = [0xF0, 0x90, 0xF0, 0x90, 0xF0] ∧
    (State.construct cfg).bytes (cfg.fontBase.val + 45) 5 = [0xF0, 0x90, 0xF0, 0x10, 0xF0] ∧
    (State.construct cfg).bytes (cfg.fontBase.val + 50) 5 = [0xF0, 0x90, 0xF0, 0x90, 0x90] ∧
    (State.construct cfg).bytes (cfg.fontBase.val + 55) 5 = [0xE0, 0x90, 0xE0, 0x90, 0xE0] ∧
    (State.construct cfg).bytes (cfg.fontBase.val + 60) 5 = [0xF0, 0x80, 0x80, 0x80, 0xF0] ∧
    (State.construct cfg).bytes (cfg.fontBase.val + 65) 5 = [0xE0, 0x90, 0x90, 0x90, 0xE0] ∧
    (State.construct cfg).bytes (cfg.fontBase.val + 70) 5 = [0xF0, 0x80, 0xF0, 0x80, 0xF0] ∧
    (State.construct cfg).bytes (cfg.fontBase.val + 75) 5 = [0xF0, 0x80, 0xF0, 0x80, 0x80] ∧
    ∀ k : Fin 80, ((State.construct cfg).byte (cfg.fontBase.val + k.val)).toNat % 16 = 0

/-- R261: reset() gives the construction values with `key[]` and the configuration as they were. (The count of draws, the
model's own, goes on: log entry 2.) -/
def Obligations.ResetKeepsKeysAndConfig : Prop :=
  ∀ s : State, ∃ t, hostOp .reset s = .next (t, .done) ∧ t.keys = s.keys ∧ t.cfg = s.cfg ∧ (∀ r, t.getV r = 0) ∧
    t.i = 0 ∧ t.pc = 0x200 ∧ t.sp = 0 ∧ t.dt = 0 ∧ t.st = 0 ∧ (∀ x y, t.pixel x y = false) ∧
    ∀ a : Nat, t.byte a = (State.construct s.cfg).byte a

/-- R262: a ROM of at most 0xE00 bytes is loaded at 0x200 over cleared memory with the font in place, every register, the
stack, the timers and the display are cleared, and `key[]` stays; after an empty image the first step raises
UnknownOpcode(0x0000). -/
def Obligations.LoadRomPlacesBytes : Prop :=
  ∀ (bytes : List Byte) (q : Option Quirks) (s : State), bytes.length ≤ 0xE00 →
    ∃ t, hostOp (.loadRom bytes q) s = .next (t, .done) ∧
      (∀ (k : Nat) (h : k < bytes.length), t.byte (0x200 + k) = bytes[k]) ∧
      (∀ k : Fin 80, t.byte (s.cfg.fontBase.val + k.val) = Config.fontData.getD k.val 0) ∧
      (∀ a : Nat, (a < s.cfg.fontBase.val ∨ s.cfg.fontBase.val + 80 ≤ a) → (a < 0x200 ∨ 0x200 + bytes.length ≤ a) →
        t.byte a = 0) ∧
      (∀ r, t.getV r = 0) ∧ t.i = 0 ∧ t.pc = 0x200 ∧ t.sp = 0 ∧ t.dt = 0 ∧ t.st = 0 ∧
      (∀ x y, t.pixel x y = false) ∧ t.keys = s.keys ∧ t.cfg.fontBase = s.cfg.fontBase ∧
      t.cfg.quirks = q.getD s.cfg.quirks ∧ (bytes = [] → step t = .fault (.unknownOpcode 0x0000))

/-- R263, R229: a longer ROM is refused with RomTooLarge of its length and changes nothing. That a run of host operations
goes on after it, from the state as it was, is the model's reading of R229 beside R222 (log entry 10). -/
def Obligations.RomTooLargeChangesNothing : Prop :=
  ∀ (bytes : List Byte) (q : Option Quirks) (s : State) (ops : List HostOp), 0xE00 < bytes.length →
    hostOp (.loadRom bytes q) s = .fault (.romTooLarge bytes.length) ∧
    runOps (.loadRom bytes q :: ops) s = runOps ops s

/-- R264: without a ROM (after reset(), or after an empty image) the first step raises UnknownOpcode(0x0000); with one of at
least two bytes the first fetch reads its first two bytes (test vector S1). -/
def Obligations.FirstFetchAfterLoad : Prop :=
  (∀ s : State, step s.hostReset = .fault (.unknownOpcode 0x0000)) ∧
  (∀ (q : Option Quirks) (s : State), ∃ t, loadRom [] q s = .ok t ∧ step t = .fault (.unknownOpcode 0x0000)) ∧
  (∀ (b0 b1 : Byte) (rest : List Byte) (q : Option Quirks) (s : State), rest.length + 2 ≤ 0xE00 →
    ∃ t, loadRom (b0 :: b1 :: rest) q s = .ok t ∧ fetch t = .ok (wordOfBytes b0 b1))

/-- R242 to R244: set_key writes one key and nothing else, and is refused outside 0..15; display() and sound_active() report
`disp` and ST > 0 and change nothing. -/
def Obligations.KeySetAndObservers : Prop :=
  ∀ (s : State) (p : Bool),
    (∀ k : Fin 16, ∃ t, hostOp (.setKey k.val p) s = .next (t, .done) ∧
      (∀ j : Fin 16, t.key j = if j = k then p else s.key j) ∧ { t with keys := s.keys } = s) ∧
    (∀ k : Nat, 16 ≤ k → hostOp (.setKey k p) s = .refused (.keyIndexOutOfRange k)) ∧
    (∃ d, hostOp .display s = .next (s, .grid d) ∧ ∀ x y, Display.pixel d x y = s.pixel x y) ∧
    (hostOp .soundActive s = .next (s, .sound true) ↔ 0 < s.st.toNat) ∧
    (hostOp .soundActive s = .next (s, .sound false) ↔ s.st.toNat = 0)

/-! ### Rules of the whole machine -/

/-- The invariant holds of every constructed machine, State.reset among them. -/
def Obligations.ConstructionMeetsInv : Prop :=
  (∀ cfg : Config, Inv (State.construct cfg)) ∧ Inv State.reset

/-- Every step keeps the invariant: canonical memory, nothing listed in the reserved area, PC at most 0x10FE, every live
return address even and at most 0x1000 (R24, R54, R55, R132). -/
def Obligations.StepKeepsInv : Prop :=
  ∀ s t : State, Inv s → step s = .next t → Inv t

/-- Every host operation keeps the invariant, so every interleaving does (R246, R247). -/
def Obligations.HostRunKeepsInv : Prop :=
  ∀ (ops : List HostOp) (s t : State), Inv s → runOps ops s = .next t → Inv t

/-- R54, R68: no run of steps, from any state, changes a byte of the reserved area, the font included. -/
def Obligations.ReservedAreaNeverChanges : Prop :=
  ∀ s t : State, Reaches s t → ∀ a : Nat, a ≤ 0x1FF → t.byte a = s.byte a

/-- R52: only FX33 and FX55 change memory. -/
def Obligations.OnlyStoresChangeMemory : Prop :=
  ∀ (i : Instr) (s t : State), exec i s = .next t → (∀ x, i ≠ .ldB x) → (∀ x, i ≠ .ldMemX x) → memSame s t

/-- R21, R22: an instruction changes no V register but those it names as destination and, if it writes a flag, VF; a flag is
0 or 1. -/
def Obligations.RegistersAndFlagsWritten : Prop :=
  ∀ (i : Instr) (s t : State), exec i s = .next t →
    (∀ r : RegIdx, namesDest i r = false → (r = 15 → writesFlag i = false) → t.getV r = s.getV r) ∧
    (writesFlag i = true → t.getV 15 = 0 ∨ t.getV 15 = 1)

/-- R25: I is written by ANNN, FX1E and FX29 only, and by FX55 and FX65 under Q_LOADSTORE_INC_I. -/
def Obligations.IndexWriters : Prop :=
  ∀ (i : Instr) (s t : State), exec i s = .next t → (∀ n, i ≠ .ldI n) → (∀ x, i ≠ .addI x) → (∀ x, i ≠ .ldF x) →
    (s.cfg.quirks.loadStoreIncI = true → (∀ x, i ≠ .ldMemX x) ∧ ∀ x, i ≠ .ldXMem x) → t.i = s.i

/-- R27, R28, R30, R245: only 2NNN and 00EE touch the stack, only FX15 and FX18 the timers, only 00E0 and DXYN the display,
and only CXNN takes a draw (R35). -/
def Obligations.StackTimersDisplayWriters : Prop :=
  ∀ (i : Instr) (s t : State), exec i s = .next t →
    ((∀ n, i ≠ .call n) → i ≠ .ret → stackSame s t) ∧
    ((∀ x, i ≠ .ldDtX x) → (∀ x, i ≠ .ldStX x) → timersSame s t) ∧
    (i ≠ .cls → (∀ x y n, i ≠ .drw x y n) → dispSame s t) ∧
    ((∀ x nn, i ≠ .rnd x nn) → drawsSame s t)

/-- R29, R32, R269: no step writes `key[]` or the configuration. -/
def Obligations.StepKeepsKeysAndConfig : Prop :=
  ∀ s t : State, step s = .next t → fixedSame s t

/-- R245, R29: an instruction other than EX9E, EXA1 and FX0A learns nothing of `key[]`: run with other keys it does the
same. The two executions compared take the same random draw, which two states with equal `draws` do (the model's choice, log
entry 2). -/
def Obligations.KeysReadOnlyByKeyInstructions : Prop :=
  ∀ (i : Instr) (s : State) (keys : Vector Bool 16), readsKeys i = false →
    exec i { s with keys := keys } = mapNext (fun t => { t with keys := keys }) (exec i s)

/-- R27: a stack entry at or above SP is not observable: two states that differ only there step alike, to states that differ
only there, or to the same error. The two steps compared take the same random draw, which two states with equal `draws` do
(the model's choice, log entry 2). -/
def Obligations.DeadStackUnobservable : Prop :=
  ∀ s t : State, sameButDeadStack s t →
    (∀ s', step s = .next s' → ∃ t', step t = .next t' ∧ sameButDeadStack s' t') ∧
    (∀ e, step s = .fault e → step t = .fault e)

/-- The canonical form of memory is unique: two canonical memories that read alike at every address are equal (the form is
the model's own, log entry 5). -/
def Obligations.CanonicalMemoryUnique : Prop :=
  ∀ (fontBase : Nat) (m m' : Memory), Memory.wf fontBase m = true → Memory.wf fontBase m' = true →
    (∀ a : Nat, Memory.read fontBase m a = Memory.read fontBase m' a) → m = m'
end

