-- ==== Sys2Proof/Laws/State.lean ====
section
/-! SUPPORT. One lemma per field per update, so that no proof unfolds a record update; and the same for the reads of one
register, byte, key and pixel. -/

namespace Sys2Proof.Machine

/-! ### `setV` -/

@[simp] theorem State.setV_v (s : State) (x : RegIdx) (b : Byte) : (s.setV x b).v = s.v.set x b := rfl
@[simp] theorem State.setV_i (s : State) (x : RegIdx) (b : Byte) : (s.setV x b).i = s.i := rfl
@[simp] theorem State.setV_pc (s : State) (x : RegIdx) (b : Byte) : (s.setV x b).pc = s.pc := rfl
@[simp] theorem State.setV_sp (s : State) (x : RegIdx) (b : Byte) : (s.setV x b).sp = s.sp := rfl
@[simp] theorem State.setV_stack (s : State) (x : RegIdx) (b : Byte) : (s.setV x b).stack = s.stack := rfl
@[simp] theorem State.setV_dt (s : State) (x : RegIdx) (b : Byte) : (s.setV x b).dt = s.dt := rfl
@[simp] theorem State.setV_st (s : State) (x : RegIdx) (b : Byte) : (s.setV x b).st = s.st := rfl
@[simp] theorem State.setV_keys (s : State) (x : RegIdx) (b : Byte) : (s.setV x b).keys = s.keys := rfl
@[simp] theorem State.setV_disp (s : State) (x : RegIdx) (b : Byte) : (s.setV x b).disp = s.disp := rfl
@[simp] theorem State.setV_mem (s : State) (x : RegIdx) (b : Byte) : (s.setV x b).mem = s.mem := rfl
@[simp] theorem State.setV_cfg (s : State) (x : RegIdx) (b : Byte) : (s.setV x b).cfg = s.cfg := rfl
@[simp] theorem State.setV_draws (s : State) (x : RegIdx) (b : Byte) : (s.setV x b).draws = s.draws := rfl
@[simp] theorem State.setV_byte (s : State) (x : RegIdx) (b : Byte) (q : Nat) : (s.setV x b).byte q = s.byte q := rfl
@[simp] theorem State.setV_key (s : State) (x : RegIdx) (b : Byte) (q : Fin 16) : (s.setV x b).key q = s.key q := rfl
@[simp] theorem State.setV_pixel (s : State) (x : RegIdx) (b : Byte) (cx : Fin 64) (cy : Fin 32) : (s.setV x b).pixel cx cy = s.pixel cx cy := rfl

/-! ### `setI` -/

@[simp] theorem State.setI_v (s : State) (w : Word) : (s.setI w).v = s.v := rfl
@[simp] theorem State.setI_i (s : State) (w : Word) : (s.setI w).i = w := rfl
@[simp] theorem State.setI_pc (s : State) (w : Word) : (s.setI w).pc = s.pc := rfl
@[simp] theorem State.setI_sp (s : State) (w : Word) : (s.setI w).sp = s.sp := rfl
@[simp] theorem State.setI_stack (s : State) (w : Word) : (s.setI w).stack = s.stack := rfl
@[simp] theorem State.setI_dt (s : State) (w : Word) : (s.setI w).dt = s.dt := rfl
@[simp] theorem State.setI_st (s : State) (w : Word) : (s.setI w).st = s.st := rfl
@[simp] theorem State.setI_keys (s : State) (w : Word) : (s.setI w).keys = s.keys := rfl
@[simp] theorem State.setI_disp (s : State) (w : Word) : (s.setI w).disp = s.disp := rfl
@[simp] theorem State.setI_mem (s : State) (w : Word) : (s.setI w).mem = s.mem := rfl
@[simp] theorem State.setI_cfg (s : State) (w : Word) : (s.setI w).cfg = s.cfg := rfl
@[simp] theorem State.setI_draws (s : State) (w : Word) : (s.setI w).draws = s.draws := rfl
@[simp] theorem State.setI_getV (s : State) (w : Word) (r : RegIdx) : (s.setI w).getV r = s.getV r := rfl
@[simp] theorem State.setI_byte (s : State) (w : Word) (q : Nat) : (s.setI w).byte q = s.byte q := rfl
@[simp] theorem State.setI_key (s : State) (w : Word) (q : Fin 16) : (s.setI w).key q = s.key q := rfl
@[simp] theorem State.setI_pixel (s : State) (w : Word) (cx : Fin 64) (cy : Fin 32) : (s.setI w).pixel cx cy = s.pixel cx cy := rfl

/-! ### `setPc` -/

@[simp] theorem State.setPc_v (s : State) (w : Word) : (s.setPc w).v = s.v := rfl
@[simp] theorem State.setPc_i (s : State) (w : Word) : (s.setPc w).i = s.i := rfl
@[simp] theorem State.setPc_pc (s : State) (w : Word) : (s.setPc w).pc = w := rfl
@[simp] theorem State.setPc_sp (s : State) (w : Word) : (s.setPc w).sp = s.sp := rfl
@[simp] theorem State.setPc_stack (s : State) (w : Word) : (s.setPc w).stack = s.stack := rfl
@[simp] theorem State.setPc_dt (s : State) (w : Word) : (s.setPc w).dt = s.dt := rfl
@[simp] theorem State.setPc_st (s : State) (w : Word) : (s.setPc w).st = s.st := rfl
@[simp] theorem State.setPc_keys (s : State) (w : Word) : (s.setPc w).keys = s.keys := rfl
@[simp] theorem State.setPc_disp (s : State) (w : Word) : (s.setPc w).disp = s.disp := rfl
@[simp] theorem State.setPc_mem (s : State) (w : Word) : (s.setPc w).mem = s.mem := rfl
@[simp] theorem State.setPc_cfg (s : State) (w : Word) : (s.setPc w).cfg = s.cfg := rfl
@[simp] theorem State.setPc_draws (s : State) (w : Word) : (s.setPc w).draws = s.draws := rfl
@[simp] theorem State.setPc_getV (s : State) (w : Word) (r : RegIdx) : (s.setPc w).getV r = s.getV r := rfl
@[simp] theorem State.setPc_byte (s : State) (w : Word) (q : Nat) : (s.setPc w).byte q = s.byte q := rfl
@[simp] theorem State.setPc_key (s : State) (w : Word) (q : Fin 16) : (s.setPc w).key q = s.key q := rfl
@[simp] theorem State.setPc_pixel (s : State) (w : Word) (cx : Fin 64) (cy : Fin 32) : (s.setPc w).pixel cx cy = s.pixel cx cy := rfl

/-! ### `setDt` -/

@[simp] theorem State.setDt_v (s : State) (b : Byte) : (s.setDt b).v = s.v := rfl
@[simp] theorem State.setDt_i (s : State) (b : Byte) : (s.setDt b).i = s.i := rfl
@[simp] theorem State.setDt_pc (s : State) (b : Byte) : (s.setDt b).pc = s.pc := rfl
@[simp] theorem State.setDt_sp (s : State) (b : Byte) : (s.setDt b).sp = s.sp := rfl
@[simp] theorem State.setDt_stack (s : State) (b : Byte) : (s.setDt b).stack = s.stack := rfl
@[simp] theorem State.setDt_dt (s : State) (b : Byte) : (s.setDt b).dt = b := rfl
@[simp] theorem State.setDt_st (s : State) (b : Byte) : (s.setDt b).st = s.st := rfl
@[simp] theorem State.setDt_keys (s : State) (b : Byte) : (s.setDt b).keys = s.keys := rfl
@[simp] theorem State.setDt_disp (s : State) (b : Byte) : (s.setDt b).disp = s.disp := rfl
@[simp] theorem State.setDt_mem (s : State) (b : Byte) : (s.setDt b).mem = s.mem := rfl
@[simp] theorem State.setDt_cfg (s : State) (b : Byte) : (s.setDt b).cfg = s.cfg := rfl
@[simp] theorem State.setDt_draws (s : State) (b : Byte) : (s.setDt b).draws = s.draws := rfl
@[simp] theorem State.setDt_getV (s : State) (b : Byte) (r : RegIdx) : (s.setDt b).getV r = s.getV r := rfl
@[simp] theorem State.setDt_byte (s : State) (b : Byte) (q : Nat) : (s.setDt b).byte q = s.byte q := rfl
@[simp] theorem State.setDt_key (s : State) (b : Byte) (q : Fin 16) : (s.setDt b).key q = s.key q := rfl
@[simp] theorem State.setDt_pixel (s : State) (b : Byte) (cx : Fin 64) (cy : Fin 32) : (s.setDt b).pixel cx cy = s.pixel cx cy := rfl

/-! ### `setSt` -/

@[simp] theorem State.setSt_v (s : State) (b : Byte) : (s.setSt b).v = s.v := rfl
@[simp] theorem State.setSt_i (s : State) (b : Byte) : (s.setSt b).i = s.i := rfl
@[simp] theorem State.setSt_pc (s : State) (b : Byte) : (s.setSt b).pc = s.pc := rfl
@[simp] theorem State.setSt_sp (s : State) (b : Byte) : (s.setSt b).sp = s.sp := rfl
@[simp] theorem State.setSt_stack (s : State) (b : Byte) : (s.setSt b).stack = s.stack := rfl
@[simp] theorem State.setSt_dt (s : State) (b : Byte) : (s.setSt b).dt = s.dt := rfl
@[simp] theorem State.setSt_st (s : State) (b : Byte) : (s.setSt b).st = b := rfl
@[simp] theorem State.setSt_keys (s : State) (b : Byte) : (s.setSt b).keys = s.keys := rfl
@[simp] theorem State.setSt_disp (s : State) (b : Byte) : (s.setSt b).disp = s.disp := rfl
@[simp] theorem State.setSt_mem (s : State) (b : Byte) : (s.setSt b).mem = s.mem := rfl
@[simp] theorem State.setSt_cfg (s : State) (b : Byte) : (s.setSt b).cfg = s.cfg := rfl
@[simp] theorem State.setSt_draws (s : State) (b : Byte) : (s.setSt b).draws = s.draws := rfl
@[simp] theorem State.setSt_getV (s : State) (b : Byte) (r : RegIdx) : (s.setSt b).getV r = s.getV r := rfl
@[simp] theorem State.setSt_byte (s : State) (b : Byte) (q : Nat) : (s.setSt b).byte q = s.byte q := rfl
@[simp] theorem State.setSt_key (s : State) (b : Byte) (q : Fin 16) : (s.setSt b).key q = s.key q := rfl
@[simp] theorem State.setSt_pixel (s : State) (b : Byte) (cx : Fin 64) (cy : Fin 32) : (s.setSt b).pixel cx cy = s.pixel cx cy := rfl

/-! ### `setDisp` -/

@[simp] theorem State.setDisp_v (s : State) (d : Display) : (s.setDisp d).v = s.v := rfl
@[simp] theorem State.setDisp_i (s : State) (d : Display) : (s.setDisp d).i = s.i := rfl
@[simp] theorem State.setDisp_pc (s : State) (d : Display) : (s.setDisp d).pc = s.pc := rfl
@[simp] theorem State.setDisp_sp (s : State) (d : Display) : (s.setDisp d).sp = s.sp := rfl
@[simp] theorem State.setDisp_stack (s : State) (d : Display) : (s.setDisp d).stack = s.stack := rfl
@[simp] theorem State.setDisp_dt (s : State) (d : Display) : (s.setDisp d).dt = s.dt := rfl
@[simp] theorem State.setDisp_st (s : State) (d : Display) : (s.setDisp d).st = s.st := rfl
@[simp] theorem State.setDisp_keys (s : State) (d : Display) : (s.setDisp d).keys = s.keys := rfl
@[simp] theorem State.setDisp_disp (s : State) (d : Display) : (s.setDisp d).disp = d := rfl
@[simp] theorem State.setDisp_mem (s : State) (d : Display) : (s.setDisp d).mem = s.mem := rfl
@[simp] theorem State.setDisp_cfg (s : State) (d : Display) : (s.setDisp d).cfg = s.cfg := rfl
@[simp] theorem State.setDisp_draws (s : State) (d : Display) : (s.setDisp d).draws = s.draws := rfl
@[simp] theorem State.setDisp_getV (s : State) (d : Display) (r : RegIdx) : (s.setDisp d).getV r = s.getV r := rfl
@[simp] theorem State.setDisp_byte (s : State) (d : Display) (q : Nat) : (s.setDisp d).byte q = s.byte q := rfl
@[simp] theorem State.setDisp_key (s : State) (d : Display) (q : Fin 16) : (s.setDisp d).key q = s.key q := rfl

/-! ### `setByte` -/

@[simp] theorem State.setByte_v (s : State) (a : Nat) (b : Byte) : (s.setByte a b).v = s.v := rfl
@[simp] theorem State.setByte_i (s : State) (a : Nat) (b : Byte) : (s.setByte a b).i = s.i := rfl
@[simp] theorem State.setByte_pc (s : State) (a : Nat) (b : Byte) : (s.setByte a b).pc = s.pc := rfl
@[simp] theorem State.setByte_sp (s : State) (a : Nat) (b : Byte) : (s.setByte a b).sp = s.sp := rfl
@[simp] theorem State.setByte_stack (s : State) (a : Nat) (b : Byte) : (s.setByte a b).stack = s.stack := rfl
@[simp] theorem State.setByte_dt (s : State) (a : Nat) (b : Byte) : (s.setByte a b).dt = s.dt := rfl
@[simp] theorem State.setByte_st (s : State) (a : Nat) (b : Byte) : (s.setByte a b).st = s.st := rfl
@[simp] theorem State.setByte_keys (s : State) (a : Nat) (b : Byte) : (s.setByte a b).keys = s.keys := rfl
@[simp] theorem State.setByte_disp (s : State) (a : Nat) (b : Byte) : (s.setByte a b).disp = s.disp := rfl
@[simp] theorem State.setByte_mem (s : State) (a : Nat) (b : Byte) : (s.setByte a b).mem = Memory.write s.cfg.fontBase.val s.mem a b := rfl
@[simp] theorem State.setByte_cfg (s : State) (a : Nat) (b : Byte) : (s.setByte a b).cfg = s.cfg := rfl
@[simp] theorem State.setByte_draws (s : State) (a : Nat) (b : Byte) : (s.setByte a b).draws = s.draws := rfl
@[simp] theorem State.setByte_getV (s : State) (a : Nat) (b : Byte) (r : RegIdx) : (s.setByte a b).getV r = s.getV r := rfl
@[simp] theorem State.setByte_key (s : State) (a : Nat) (b : Byte) (q : Fin 16) : (s.setByte a b).key q = s.key q := rfl
@[simp] theorem State.setByte_pixel (s : State) (a : Nat) (b : Byte) (cx : Fin 64) (cy : Fin 32) : (s.setByte a b).pixel cx cy = s.pixel cx cy := rfl

/-! ### `advance` -/

@[simp] theorem State.advance_v (s : State) : (s.advance).v = s.v := rfl
@[simp] theorem State.advance_i (s : State) : (s.advance).i = s.i := rfl
@[simp] theorem State.advance_pc (s : State) : (s.advance).pc = s.pc + 2 := rfl
@[simp] theorem State.advance_sp (s : State) : (s.advance).sp = s.sp := rfl
@[simp] theorem State.advance_stack (s : State) : (s.advance).stack = s.stack := rfl
@[simp] theorem State.advance_dt (s : State) : (s.advance).dt = s.dt := rfl
@[simp] theorem State.advance_st (s : State) : (s.advance).st = s.st := rfl
@[simp] theorem State.advance_keys (s : State) : (s.advance).keys = s.keys := rfl
@[simp] theorem State.advance_disp (s : State) : (s.advance).disp = s.disp := rfl
@[simp] theorem State.advance_mem (s : State) : (s.advance).mem = s.mem := rfl
@[simp] theorem State.advance_cfg (s : State) : (s.advance).cfg = s.cfg := rfl
@[simp] theorem State.advance_draws (s : State) : (s.advance).draws = s.draws := rfl
@[simp] theorem State.advance_getV (s : State) (r : RegIdx) : (s.advance).getV r = s.getV r := rfl
@[simp] theorem State.advance_byte (s : State) (q : Nat) : (s.advance).byte q = s.byte q := rfl
@[simp] theorem State.advance_key (s : State) (q : Fin 16) : (s.advance).key q = s.key q := rfl
@[simp] theorem State.advance_pixel (s : State) (cx : Fin 64) (cy : Fin 32) : (s.advance).pixel cx cy = s.pixel cx cy := rfl

/-! ### `skipIf` -/

@[simp] theorem State.skipIf_v (s : State) (c : Bool) : (s.skipIf c).v = s.v := rfl
@[simp] theorem State.skipIf_i (s : State) (c : Bool) : (s.skipIf c).i = s.i := rfl
@[simp] theorem State.skipIf_pc (s : State) (c : Bool) : (s.skipIf c).pc = if c then s.pc + 4 else s.pc + 2 := rfl
@[simp] theorem State.skipIf_sp (s : State) (c : Bool) : (s.skipIf c).sp = s.sp := rfl
@[simp] theorem State.skipIf_stack (s : State) (c : Bool) : (s.skipIf c).stack = s.stack := rfl
@[simp] theorem State.skipIf_dt (s : State) (c : Bool) : (s.skipIf c).dt = s.dt := rfl
@[simp] theorem State.skipIf_st (s : State) (c : Bool) : (s.skipIf c).st = s.st := rfl
@[simp] theorem State.skipIf_keys (s : State) (c : Bool) : (s.skipIf c).keys = s.keys := rfl
@[simp] theorem State.skipIf_disp (s : State) (c : Bool) : (s.skipIf c).disp = s.disp := rfl
@[simp] theorem State.skipIf_mem (s : State) (c : Bool) : (s.skipIf c).mem = s.mem := rfl
@[simp] theorem State.skipIf_cfg (s : State) (c : Bool) : (s.skipIf c).cfg = s.cfg := rfl
@[simp] theorem State.skipIf_draws (s : State) (c : Bool) : (s.skipIf c).draws = s.draws := rfl
@[simp] theorem State.skipIf_getV (s : State) (c : Bool) (r : RegIdx) : (s.skipIf c).getV r = s.getV r := rfl
@[simp] theorem State.skipIf_byte (s : State) (c : Bool) (q : Nat) : (s.skipIf c).byte q = s.byte q := rfl
@[simp] theorem State.skipIf_key (s : State) (c : Bool) (q : Fin 16) : (s.skipIf c).key q = s.key q := rfl
@[simp] theorem State.skipIf_pixel (s : State) (c : Bool) (cx : Fin 64) (cy : Fin 32) : (s.skipIf c).pixel cx cy = s.pixel cx cy := rfl

/-! ### `setResult` -/

@[simp] theorem State.setResult_i (s : State) (x : RegIdx) (r : Byte) (c : Bool) : (s.setResult x r c).i = s.i := rfl
@[simp] theorem State.setResult_pc (s : State) (x : RegIdx) (r : Byte) (c : Bool) : (s.setResult x r c).pc = s.pc := rfl
@[simp] theorem State.setResult_sp (s : State) (x : RegIdx) (r : Byte) (c : Bool) : (s.setResult x r c).sp = s.sp := rfl
@[simp] theorem State.setResult_stack (s : State) (x : RegIdx) (r : Byte) (c : Bool) : (s.setResult x r c).stack = s.stack := rfl
@[simp] theorem State.setResult_dt (s : State) (x : RegIdx) (r : Byte) (c : Bool) : (s.setResult x r c).dt = s.dt := rfl
@[simp] theorem State.setResult_st (s : State) (x : RegIdx) (r : Byte) (c : Bool) : (s.setResult x r c).st = s.st := rfl
@[simp] theorem State.setResult_keys (s : State) (x : RegIdx) (r : Byte) (c : Bool) : (s.setResult x r c).keys = s.keys := rfl
@[simp] theorem State.setResult_disp (s : State) (x : RegIdx) (r : Byte) (c : Bool) : (s.setResult x r c).disp = s.disp := rfl
@[simp] theorem State.setResult_mem (s : State) (x : RegIdx) (r : Byte) (c : Bool) : (s.setResult x r c).mem = s.mem := rfl
@[simp] theorem State.setResult_cfg (s : State) (x : RegIdx) (r : Byte) (c : Bool) : (s.setResult x r c).cfg = s.cfg := rfl
@[simp] theorem State.setResult_draws (s : State) (x : RegIdx) (r : Byte) (c : Bool) : (s.setResult x r c).draws = s.draws := rfl
@[simp] theorem State.setResult_byte (s : State) (x : RegIdx) (r : Byte) (c : Bool) (q : Nat) : (s.setResult x r c).byte q = s.byte q := rfl
@[simp] theorem State.setResult_key (s : State) (x : RegIdx) (r : Byte) (c : Bool) (q : Fin 16) : (s.setResult x r c).key q = s.key q := rfl
@[simp] theorem State.setResult_pixel (s : State) (x : RegIdx) (r : Byte) (c : Bool) (cx : Fin 64) (cy : Fin 32) : (s.setResult x r c).pixel cx cy = s.pixel cx cy := rfl

/-! ### `setKey` -/

@[simp] theorem State.setKey_v (s : State) (k : Fin 16) (p : Bool) : (s.setKey k p).v = s.v := rfl
@[simp] theorem State.setKey_i (s : State) (k : Fin 16) (p : Bool) : (s.setKey k p).i = s.i := rfl
@[simp] theorem State.setKey_pc (s : State) (k : Fin 16) (p : Bool) : (s.setKey k p).pc = s.pc := rfl
@[simp] theorem State.setKey_sp (s : State) (k : Fin 16) (p : Bool) : (s.setKey k p).sp = s.sp := rfl
@[simp] theorem State.setKey_stack (s : State) (k : Fin 16) (p : Bool) : (s.setKey k p).stack = s.stack := rfl
@[simp] theorem State.setKey_dt (s : State) (k : Fin 16) (p : Bool) : (s.setKey k p).dt = s.dt := rfl
@[simp] theorem State.setKey_st (s : State) (k : Fin 16) (p : Bool) : (s.setKey k p).st = s.st := rfl
@[simp] theorem State.setKey_keys (s : State) (k : Fin 16) (p : Bool) : (s.setKey k p).keys = s.keys.set k p := rfl
@[simp] theorem State.setKey_disp (s : State) (k : Fin 16) (p : Bool) : (s.setKey k p).disp = s.disp := rfl
@[simp] theorem State.setKey_mem (s : State) (k : Fin 16) (p : Bool) : (s.setKey k p).mem = s.mem := rfl
@[simp] theorem State.setKey_cfg (s : State) (k : Fin 16) (p : Bool) : (s.setKey k p).cfg = s.cfg := rfl
@[simp] theorem State.setKey_draws (s : State) (k : Fin 16) (p : Bool) : (s.setKey k p).draws = s.draws := rfl
@[simp] theorem State.setKey_getV (s : State) (k : Fin 16) (p : Bool) (r : RegIdx) : (s.setKey k p).getV r = s.getV r := rfl
@[simp] theorem State.setKey_byte (s : State) (k : Fin 16) (p : Bool) (q : Nat) : (s.setKey k p).byte q = s.byte q := rfl
@[simp] theorem State.setKey_pixel (s : State) (k : Fin 16) (p : Bool) (cx : Fin 64) (cy : Fin 32) : (s.setKey k p).pixel cx cy = s.pixel cx cy := rfl

/-! ### `tickTimers` -/

@[simp] theorem State.tickTimers_v (s : State) : (s.tickTimers).v = s.v := rfl
@[simp] theorem State.tickTimers_i (s : State) : (s.tickTimers).i = s.i := rfl
@[simp] theorem State.tickTimers_pc (s : State) : (s.tickTimers).pc = s.pc := rfl
@[simp] theorem State.tickTimers_sp (s : State) : (s.tickTimers).sp = s.sp := rfl
@[simp] theorem State.tickTimers_stack (s : State) : (s.tickTimers).stack = s.stack := rfl
@[simp] theorem State.tickTimers_keys (s : State) : (s.tickTimers).keys = s.keys := rfl
@[simp] theorem State.tickTimers_disp (s : State) : (s.tickTimers).disp = s.disp := rfl
@[simp] theorem State.tickTimers_mem (s : State) : (s.tickTimers).mem = s.mem := rfl
@[simp] theorem State.tickTimers_cfg (s : State) : (s.tickTimers).cfg = s.cfg := rfl
@[simp] theorem State.tickTimers_draws (s : State) : (s.tickTimers).draws = s.draws := rfl
@[simp] theorem State.tickTimers_getV (s : State) (r : RegIdx) : (s.tickTimers).getV r = s.getV r := rfl
@[simp] theorem State.tickTimers_byte (s : State) (q : Nat) : (s.tickTimers).byte q = s.byte q := rfl
@[simp] theorem State.tickTimers_key (s : State) (q : Fin 16) : (s.tickTimers).key q = s.key q := rfl
@[simp] theorem State.tickTimers_pixel (s : State) (cx : Fin 64) (cy : Fin 32) : (s.tickTimers).pixel cx cy = s.pixel cx cy := rfl

/-! ### A register, a key and a pixel after a write -/

theorem State.setV_getV (s : State) (x r : RegIdx) (b : Byte) :
    (s.setV x b).getV r = if r = x then b else s.getV r := by
  simp only [State.getV, State.setV, Vector.get_eq_getElem, Vector.getElem_set, Fin.ext_iff, eq_comm]

@[simp] theorem State.setV_getV_self (s : State) (x : RegIdx) (b : Byte) : (s.setV x b).getV x = b := by
  simp [State.setV_getV]

@[simp] theorem State.setV_getV_of_ne (s : State) {x r : RegIdx} (b : Byte) (h : r ≠ x) :
    (s.setV x b).getV r = s.getV r := by
  simp [State.setV_getV, h]

/-- The flag wins when X = F (R23). -/
theorem State.setResult_getV (s : State) (x r : RegIdx) (b : Byte) (c : Bool) :
    (s.setResult x b c).getV r = if r = regF then flagByte c else if r = x then b else s.getV r := by
  simp only [State.setResult, State.setV_getV]

theorem State.setKey_key (s : State) (k q : Fin 16) (p : Bool) :
    (s.setKey k p).key q = if q = k then p else s.key q := by
  simp only [State.key, State.setKey, Vector.get_eq_getElem, Vector.getElem_set, Fin.ext_iff, eq_comm]

theorem Display.pixel_setPixel (d : Display) (x p : Fin 64) (y q : Fin 32) (b : Bool) :
    Display.pixel (Display.setPixel d x y b) p q = if p = x ∧ q = y then b else Display.pixel d p q := by
  unfold Display.pixel Display.setPixel
  simp only [Vector.get_eq_getElem, Vector.getElem_set]
  by_cases hx : x.val = p.val
  · have hx' : p = x := Fin.ext hx.symm
    subst hx'
    by_cases hy : y.val = q.val
    · have hy' : q = y := Fin.ext hy.symm
      simp [hy']
    · have hy' : q ≠ y := fun h => hy (congrArg Fin.val h.symm)
      simp [hy, hy']
  · have hx' : p ≠ x := fun h => hx (congrArg Fin.val h.symm)
    simp [hx, hx']

@[simp] theorem State.setDisp_pixel (s : State) (d : Display) (x : Fin 64) (y : Fin 32) :
    (s.setDisp d).pixel x y = Display.pixel d x y := rfl

@[simp] theorem Display.pixel_blank (x : Fin 64) (y : Fin 32) : Display.pixel Display.blank x y = false := by
  simp [Display.pixel, Display.blank, Vector.get_eq_getElem]

/-! ### The random draw -/

@[simp] theorem State.draw_fst (s : State) : s.draw.1 = Config.freeByte s.draws := rfl

@[simp] theorem State.draw_snd (s : State) : s.draw.2 = { s with draws := s.draws + 1 } := rfl

end Sys2Proof.Machine
end

