-- ==== Sys2Proof/Laws/Memory.lean ====
section
/-! SUPPORT. Memory: a read after a write, and the canonical form, which every memory operation keeps. -/

namespace Sys2Proof.Machine

/-! ### The list of entries -/

theorem Memory.read_entry_append (fb a q : Nat) (b : Byte) (rest : Memory)
    (h : Memory.read fb rest a = Memory.unlisted fb a) :
    Memory.read fb (Memory.entry fb a b ++ rest) q = if q = a then b else Memory.read fb rest q := by
  unfold Memory.entry
  by_cases hb : b = Memory.unlisted fb a
  · by_cases hq : q = a
    · subst hq; simp [hb, h]
    · simp [hb, hq]
  · simp [hb, Memory.read]

/-- Below the first address of a canonical list nothing is listed. -/
theorem Memory.read_below {fb : Nat} : ∀ {m : Memory} {lo a : Nat}, Memory.wfFrom fb lo m = true → a < lo →
    Memory.read fb m a = Memory.unlisted fb a
  | [], _, _, _, _ => rfl
  | (k, c) :: rest, lo, a, h, ha => by
    simp only [Memory.wfFrom, Bool.and_eq_true, decide_eq_true_eq] at h
    have hk : a ≠ k := by omega
    simp only [Memory.read, hk, if_false]
    exact Memory.read_below h.2 (by omega)

theorem Memory.wfFrom_mono {fb : Nat} {m : Memory} {lo lo' : Nat} (h : Memory.wfFrom fb lo m = true) (hl : lo' ≤ lo) :
    Memory.wfFrom fb lo' m = true := by
  cases m with
  | nil => rfl
  | cons kc rest =>
    simp only [Memory.wfFrom, Bool.and_eq_true, decide_eq_true_eq] at h ⊢
    exact ⟨⟨⟨by omega, h.1.1.2⟩, h.1.2⟩, h.2⟩

/-- What a write to a canonical list reads as. -/
theorem Memory.read_put {fb : Nat} : ∀ {m : Memory} {lo : Nat} (a q : Nat) (b : Byte),
    Memory.wfFrom fb lo m = true → Memory.read fb (Memory.put fb m a b) q = if q = a then b else Memory.read fb m q
  | [], _, a, q, b, _ => by
    have := Memory.read_entry_append fb a q b [] rfl
    simpa [Memory.put] using this
  | (k, c) :: rest, lo, a, q, b, h => by
    have h0 := h
    simp only [Memory.wfFrom, Bool.and_eq_true, decide_eq_true_eq] at h
    unfold Memory.put
    by_cases hlt : a < k
    · rw [if_pos hlt]
      apply Memory.read_entry_append
      have hk : a ≠ k := by omega
      simp only [Memory.read, hk, if_false]
      exact Memory.read_below h.2 (by omega)
    · rw [if_neg hlt]
      by_cases heq : a = k
      · subst heq
        rw [if_pos rfl, Memory.read_entry_append _ _ _ _ _ (Memory.read_below h.2 (by omega))]
        by_cases hq : q = a <;> simp [Memory.read, hq]
      · rw [if_neg heq]
        simp only [Memory.read]
        rw [Memory.read_put a q b h.2]
        by_cases hq : q = k
        · subst hq
          have hne : q ≠ a := fun h => heq h.symm
          simp [hne]
        · simp [hq]

theorem Memory.wfFrom_entry_append {fb lo a : Nat} {b : Byte} {rest : Memory} (hlo : lo ≤ a) (ha : a < Config.memSize)
    (h : Memory.wfFrom fb (a + 1) rest = true) : Memory.wfFrom fb lo (Memory.entry fb a b ++ rest) = true := by
  unfold Memory.entry
  by_cases hb : b = Memory.unlisted fb a
  · simp only [if_pos hb, List.nil_append]
    exact Memory.wfFrom_mono h (by omega)
  · simp [hb, Memory.wfFrom, hlo, ha, h]

theorem Memory.wfFrom_put {fb : Nat} : ∀ {m : Memory} {lo a : Nat} (b : Byte), Memory.wfFrom fb lo m = true → lo ≤ a →
    a < Config.memSize → Memory.wfFrom fb lo (Memory.put fb m a b) = true
  | [], lo, a, b, _, hlo, ha => by
    have := Memory.wfFrom_entry_append (b := b) (rest := []) hlo ha (fb := fb) rfl
    simpa [Memory.put] using this
  | (k, c) :: rest, lo, a, b, h, hlo, ha => by
    have h0 := h
    simp only [Memory.wfFrom, Bool.and_eq_true, decide_eq_true_eq] at h
    unfold Memory.put
    by_cases hlt : a < k
    · rw [if_pos hlt]
      apply Memory.wfFrom_entry_append hlo ha
      simp only [Memory.wfFrom, Bool.and_eq_true, decide_eq_true_eq]
      exact ⟨⟨⟨by omega, h.1.1.2⟩, h.1.2⟩, h.2⟩
    · rw [if_neg hlt]
      by_cases heq : a = k
      · subst heq
        rw [if_pos rfl]
        exact Memory.wfFrom_entry_append hlo ha h.2
      · rw [if_neg heq]
        simp only [Memory.wfFrom, Bool.and_eq_true, decide_eq_true_eq]
        exact ⟨h.1, Memory.wfFrom_put b h.2 (by omega) ha⟩

/-- A put touches no other byte, whatever the list. -/
theorem Memory.read_put_of_ne {fb : Nat} : ∀ {m : Memory} {a q : Nat} (b : Byte), q ≠ a →
    Memory.read fb (Memory.put fb m a b) q = Memory.read fb m q
  | [], a, q, b, hq => by
    unfold Memory.put Memory.entry
    split <;> simp [Memory.read, hq]
  | (k, c) :: rest, a, q, b, hq => by
    have he : ∀ m : Memory, Memory.read fb (Memory.entry fb a b ++ m) q = Memory.read fb m q := by
      intro m
      unfold Memory.entry
      split <;> simp [Memory.read, hq]
    unfold Memory.put
    by_cases hlt : a < k
    · rw [if_pos hlt, he]
    · rw [if_neg hlt]
      by_cases heq : a = k
      · rw [if_pos heq, he]
        simp [Memory.read, heq ▸ hq]
      · rw [if_neg heq]
        simp only [Memory.read, Memory.read_put_of_ne b hq]

/-! ### The operations -/

/-- A write keeps the canonical form. -/
theorem Memory.write_wf {fb : Nat} {m : Memory} (a : Nat) (b : Byte) (h : Memory.wf fb m = true) :
    Memory.wf fb (Memory.write fb m a b) = true := by
  unfold Memory.write
  by_cases ha : a < Config.memSize
  · rw [if_pos ha]; exact Memory.wfFrom_put b h (Nat.zero_le _) ha
  · rw [if_neg ha]; exact h

/-- A read after a write: the byte written at its own address, every other byte as before. -/
theorem Memory.read_write {fb : Nat} {m : Memory} (a q : Nat) (b : Byte) (h : Memory.wf fb m = true)
    (ha : a < Config.memSize) :
    Memory.read fb (Memory.write fb m a b) q = if q = a then b else Memory.read fb m q := by
  unfold Memory.write
  rw [if_pos ha, Memory.read_put a q b h]

/-- A write touches no other byte, whatever the address and the memory. -/
theorem Memory.read_write_of_ne {fb : Nat} {m : Memory} {a q : Nat} (b : Byte) (hq : q ≠ a) :
    Memory.read fb (Memory.write fb m a b) q = Memory.read fb m q := by
  unfold Memory.write
  split
  · exact Memory.read_put_of_ne b hq
  · rfl

/-- The reset memory is canonical, whatever the arguments (R260). -/
theorem State.construct_wf (cfg : Config) :
    Memory.wf (State.construct cfg).cfg.fontBase.val (State.construct cfg).mem = true := rfl

/-- The reset memory is canonical. -/
theorem State.reset_wf : Memory.wf State.reset.cfg.fontBase.val State.reset.mem = true := rfl

/-- Storing one byte keeps the canonical form. -/
theorem State.setByte_wf {s : State} (a : Nat) (b : Byte) (h : Memory.wf s.cfg.fontBase.val s.mem = true) :
    Memory.wf (s.setByte a b).cfg.fontBase.val (s.setByte a b).mem = true :=
  Memory.write_wf a b h

/-- Storing bytes keeps the canonical form. -/
theorem State.setBytes_wf : ∀ (bs : List Byte) {s : State} (a : Nat), Memory.wf s.cfg.fontBase.val s.mem = true →
    Memory.wf (s.setBytes a bs).cfg.fontBase.val (s.setBytes a bs).mem = true
  | [], _, _, h => h
  | b :: rest, _, a, h => State.setBytes_wf rest (a + 1) (State.setByte_wf a b h)

/-- A byte after storing one byte. -/
theorem State.setByte_byte {s : State} (a q : Nat) (b : Byte) (h : Memory.wf s.cfg.fontBase.val s.mem = true)
    (ha : a < Config.memSize) : (s.setByte a b).byte q = if q = a then b else s.byte q :=
  Memory.read_write a q b h ha

/-- A byte outside the bytes stored is unchanged. -/
theorem State.setBytes_byte_of_not_mem : ∀ (bs : List Byte) {s : State} (a q : Nat),
    (q < a ∨ a + bs.length ≤ q) → (s.setBytes a bs).byte q = s.byte q
  | [], _, _, _, _ => rfl
  | b :: rest, s, a, q, hq => by
    simp only [List.length_cons] at hq
    have hne : q ≠ a := by omega
    rw [State.setBytes, State.setBytes_byte_of_not_mem rest (a + 1) q (by omega)]
    exact Memory.read_write_of_ne b hne

/-- Byte k of the bytes stored at `a` is read back at `a + k`. -/
theorem State.setBytes_byte : ∀ (bs : List Byte) {s : State} (a k : Nat) (hk : k < bs.length),
    Memory.wf s.cfg.fontBase.val s.mem = true → a + bs.length ≤ Config.memSize →
    (s.setBytes a bs).byte (a + k) = bs[k]
  | b :: rest, s, a, 0, _, h, hb => by
    simp only [List.length_cons] at hb
    rw [State.setBytes, State.setBytes_byte_of_not_mem rest (a + 1) _ (by omega),
      State.setByte_byte _ _ _ h (by omega)]
    simp
  | b :: rest, s, a, k + 1, hk, h, hb => by
    simp only [List.length_cons] at hk hb
    have := State.setBytes_byte rest (s := s.setByte a b) (a + 1) k (by omega) (State.setByte_wf a b h) (by omega)
    rw [State.setBytes, show a + (k + 1) = a + 1 + k by omega, this]
    simp

/-- Byte k of the bytes read from `a`. -/
theorem State.bytes_getElem (s : State) : ∀ (n a k : Nat) (hk : k < (s.bytes a n).length),
    (s.bytes a n)[k] = s.byte (a + k)
  | n + 1, a, 0, _ => rfl
  | n + 1, a, k + 1, hk => by
    simp only [State.bytes, List.getElem_cons_succ]
    rw [State.bytes_getElem s n (a + 1) k, show a + (k + 1) = a + 1 + k by omega]

@[simp] theorem State.bytes_length (s : State) : ∀ (n a : Nat), (s.bytes a n).length = n
  | 0, _ => rfl
  | n + 1, a => by simp [State.bytes, State.bytes_length s n (a + 1)]

end Sys2Proof.Machine
end

