-- ==== Sys2Proof/Laws/Ops.lean ====
section
/-! SUPPORT. For each shared operation, what it can do: the stack, the access checks, the multi-byte accesses, fetch, the
operand forms and the display's single-pixel draw. -/

namespace Sys2Proof.Machine

/-! ### Storing bytes changes memory alone -/

@[simp] theorem State.setBytes_v : ∀ (bs : List Byte) (s : State) (a : Nat), (s.setBytes a bs).v = s.v
  | [], _, _ => rfl
  | b :: rest, s, a => State.setBytes_v rest (s.setByte a b) (a + 1)

@[simp] theorem State.setBytes_i : ∀ (bs : List Byte) (s : State) (a : Nat), (s.setBytes a bs).i = s.i
  | [], _, _ => rfl
  | b :: rest, s, a => State.setBytes_i rest (s.setByte a b) (a + 1)

@[simp] theorem State.setBytes_pc : ∀ (bs : List Byte) (s : State) (a : Nat), (s.setBytes a bs).pc = s.pc
  | [], _, _ => rfl
  | b :: rest, s, a => State.setBytes_pc rest (s.setByte a b) (a + 1)

@[simp] theorem State.setBytes_sp : ∀ (bs : List Byte) (s : State) (a : Nat), (s.setBytes a bs).sp = s.sp
  | [], _, _ => rfl
  | b :: rest, s, a => State.setBytes_sp rest (s.setByte a b) (a + 1)

@[simp] theorem State.setBytes_stack : ∀ (bs : List Byte) (s : State) (a : Nat), (s.setBytes a bs).stack = s.stack
  | [], _, _ => rfl
  | b :: rest, s, a => State.setBytes_stack rest (s.setByte a b) (a + 1)

@[simp] theorem State.setBytes_dt : ∀ (bs : List Byte) (s : State) (a : Nat), (s.setBytes a bs).dt = s.dt
  | [], _, _ => rfl
  | b :: rest, s, a => State.setBytes_dt rest (s.setByte a b) (a + 1)

@[simp] theorem State.setBytes_st : ∀ (bs : List Byte) (s : State) (a : Nat), (s.setBytes a bs).st = s.st
  | [], _, _ => rfl
  | b :: rest, s, a => State.setBytes_st rest (s.setByte a b) (a + 1)

@[simp] theorem State.setBytes_keys : ∀ (bs : List Byte) (s : State) (a : Nat), (s.setBytes a bs).keys = s.keys
  | [], _, _ => rfl
  | b :: rest, s, a => State.setBytes_keys rest (s.setByte a b) (a + 1)

@[simp] theorem State.setBytes_disp : ∀ (bs : List Byte) (s : State) (a : Nat), (s.setBytes a bs).disp = s.disp
  | [], _, _ => rfl
  | b :: rest, s, a => State.setBytes_disp rest (s.setByte a b) (a + 1)

@[simp] theorem State.setBytes_cfg : ∀ (bs : List Byte) (s : State) (a : Nat), (s.setBytes a bs).cfg = s.cfg
  | [], _, _ => rfl
  | b :: rest, s, a => State.setBytes_cfg rest (s.setByte a b) (a + 1)

@[simp] theorem State.setBytes_draws : ∀ (bs : List Byte) (s : State) (a : Nat), (s.setBytes a bs).draws = s.draws
  | [], _, _ => rfl
  | b :: rest, s, a => State.setBytes_draws rest (s.setByte a b) (a + 1)

@[simp] theorem State.setBytes_getV (s : State) (a : Nat) (bs : List Byte) (r : RegIdx) : (s.setBytes a bs).getV r = s.getV r := by simp [State.getV]
@[simp] theorem State.setBytes_key (s : State) (a : Nat) (bs : List Byte) (q : Fin 16) : (s.setBytes a bs).key q = s.key q := by simp [State.key]
@[simp] theorem State.setBytes_pixel (s : State) (a : Nat) (bs : List Byte) (cx : Fin 64) (cy : Fin 32) : (s.setBytes a bs).pixel cx cy = s.pixel cx cy := by simp [State.pixel]

/-- An entry of the memory after a store is an old entry or one of the bytes stored. -/
theorem Memory.mem_put {fb : Nat} : ∀ {m : Memory} {a : Nat} {b : Byte} {c : Host.Cell}, c ∈ Memory.put fb m a b →
    c ∈ m ∨ c = (a, b)
  | [], a, b, c, h => by
    unfold Memory.put Memory.entry at h
    split at h <;> simp_all
  | (k, d) :: rest, a, b, c, h => by
    unfold Memory.put at h
    split at h
    · unfold Memory.entry at h
      split at h <;> simp_all
      tauto
    · split at h
      · unfold Memory.entry at h
        split at h <;> simp_all
        tauto
      · rcases List.mem_cons.mp h with h | h
        · exact .inl (h ▸ List.mem_cons_self)
        · rcases Memory.mem_put h with h | h
          · exact .inl (List.mem_cons_of_mem _ h)
          · exact .inr h

theorem State.mem_setByte {s : State} {a : Nat} {b : Byte} {c : Host.Cell} (h : c ∈ (s.setByte a b).mem) :
    c ∈ s.mem ∨ c = (a, b) := by
  unfold State.setByte Memory.write at h
  dsimp only at h
  split at h
  · exact Memory.mem_put h
  · exact .inl h

theorem State.mem_setBytes : ∀ {bs : List Byte} {s : State} {a : Nat} {c : Host.Cell}, c ∈ (s.setBytes a bs).mem →
    c ∈ s.mem ∨ a ≤ c.1
  | [], _, _, _, h => .inl h
  | b :: rest, s, a, c, h => by
    have h' : c ∈ (State.setBytes (s.setByte a b) (a + 1) rest).mem := h
    rcases State.mem_setBytes h' with h | h
    · rcases State.mem_setByte h with h | h
      · exact .inl h
      · exact .inr (by rw [h])
    · exact .inr (by omega)

/-! ### The stack (R26) -/

/-- `push` fails exactly at depth 16. -/
theorem State.push_eq_none_iff {s : State} {a : Word} : s.push a = none ↔ s.sp = 16 := by
  have := s.sp.isLt
  unfold State.push
  split <;> simp [Fin.ext_iff] <;> omega

/-- A push stores the address at the old depth, raises the depth by one and changes nothing else. -/
theorem State.push_some {s t : State} {a : Word} (h : s.push a = some t) :
    s.sp.val < 16 ∧ t.sp.val = s.sp.val + 1 ∧
      (∀ k : Fin 16, t.stack.get k = if k.val = s.sp.val then a else s.stack.get k) ∧
      t = { s with stack := t.stack, sp := t.sp } := by
  unfold State.push at h
  split at h
  · rename_i hlt
    obtain rfl := Option.some.inj h
    refine ⟨hlt, rfl, fun k => ?_, rfl⟩
    simp only [Vector.get_eq_getElem]
    rw [Vector.getElem_set]
    by_cases hk : s.sp.val = k.val
    · rw [if_pos hk, if_pos hk.symm]
    · rw [if_neg hk, if_neg (Ne.symm hk)]
  · cases h

/-- `pop` fails exactly at depth 0. -/
theorem State.pop_eq_none_iff {s : State} : s.pop = none ↔ s.sp.val = 0 := by
  unfold State.pop
  split
  · rename_i h
    exact ⟨fun _ => h, fun _ => rfl⟩
  · rename_i h
    exact ⟨fun h' => (by cases h'), fun h' => absurd h' h⟩

/-- A pop answers the entry below the depth, lowers the depth by one and changes nothing else. -/
theorem State.pop_some {s t : State} {a : Word} (h : s.pop = some (a, t)) :
    0 < s.sp.val ∧ t.sp.val = s.sp.val - 1 ∧ (∀ k : Fin 16, k.val + 1 = s.sp.val → a = s.stack.get k) ∧
      t = { s with sp := t.sp } := by
  unfold State.pop at h
  split at h
  · cases h
  · rename_i hne
    obtain ⟨rfl, rfl⟩ := Prod.mk.inj (Option.some.inj h)
    refine ⟨by omega, rfl, fun k hk => ?_, rfl⟩
    congr 1
    exact Fin.ext (by simp; omega)

/-! ### The access checks (R53, R54, R60) -/

theorem checkReads_eq_none_iff : ∀ {n a : Nat}, checkReads a n = none ↔ n = 0 ∨ a + n ≤ 0x1000
  | 0, _ => by simp [checkReads]
  | n + 1, a => by
    unfold checkReads checkRead
    by_cases h : 0xFFF < a
    · simp [h]; omega
    · simp only [if_neg h, checkReads_eq_none_iff (n := n)]; omega

theorem checkWrites_eq_none_iff : ∀ {n a : Nat}, checkWrites a n = none ↔ n = 0 ∨ (0x1FF < a ∧ a + n ≤ 0x1000)
  | 0, _ => by simp [checkWrites]
  | n + 1, a => by
    unfold checkWrites checkWrite
    by_cases h : 0xFFF < a
    · simp [h]; omega
    · by_cases h' : a ≤ 0x1FF
      · simp only [if_neg h, if_pos h']
        constructor
        · intro h0; cases h0
        · omega
      · simp only [if_neg h, if_neg h', checkWrites_eq_none_iff (n := n)]; omega

/-- The error of a failing read is the first address past 0xFFF. -/
theorem checkReads_of_gt : ∀ {n a : Nat} (k : Nat), k < n → 0xFFF < a + k → (∀ j < k, a + j ≤ 0xFFF) →
    checkReads a n = some (.memoryOutOfBounds (a + k))
  | n + 1, a, 0, _, h, _ => by
    unfold checkReads checkRead
    rw [if_pos (by omega)]; rfl
  | n + 1, a, k + 1, hk, h, hj => by
    have h0 := hj 0 (by omega)
    unfold checkReads checkRead
    rw [if_neg (by omega)]
    have := checkReads_of_gt (n := n) (a := a + 1) k (by omega) (by omega) (fun j hj' => by have := hj (j + 1) (by omega); omega)
    rw [show a + (k + 1) = a + 1 + k by omega]
    exact this

/-- The error of a failing write is that of the first address whose own check fails. -/
theorem checkWrites_of_error : ∀ {n a : Nat} {e : Fault} (k : Nat), k < n → checkWrite (a + k) = some e →
    (∀ j < k, checkWrite (a + j) = none) → checkWrites a n = some e
  | n + 1, a, e, 0, _, h, _ => by
    unfold checkWrites
    rw [show a = a + 0 from rfl, h]
  | n + 1, a, e, k + 1, hk, h, hj => by
    have h0 := hj 0 (by omega)
    unfold checkWrites
    rw [show a = a + 0 from rfl, h0]
    exact checkWrites_of_error (n := n) (a := a + 1) k (by omega) (by rw [show a + 1 + k = a + (k + 1) by omega]; exact h)
      (fun j hj' => by have := hj (j + 1) (by omega); rw [show a + 1 + j = a + (j + 1) by omega]; exact this)

/-- A multi-byte read that answers a next state read every byte in range. -/
theorem withReads_next {s t : State} {a n : Nat} {f : List Byte → State} (h : withReads s a n f = .next t) :
    (n = 0 ∨ a + n ≤ 0x1000) ∧ t = f (s.bytes a n) := by
  unfold withReads at h
  split at h
  · cases h
  · rename_i hc
    exact ⟨checkReads_eq_none_iff.mp hc, by injection h with h; exact h.symm⟩

theorem withReads_of_ok {s : State} {a n : Nat} {f : List Byte → State} (h : n = 0 ∨ a + n ≤ 0x1000) :
    withReads s a n f = .next (f (s.bytes a n)) := by
  unfold withReads
  rw [checkReads_eq_none_iff.mpr h]

/-- A multi-byte write that answers a next state wrote every byte, in range and outside the reserved area. -/
theorem withWrites_next {s t : State} {a : Nat} {bs : List Byte} {f : State → State}
    (h : withWrites s a bs f = .next t) :
    (bs = [] ∨ (0x1FF < a ∧ a + bs.length ≤ 0x1000)) ∧ t = f (s.setBytes a bs) := by
  unfold withWrites at h
  split at h
  · cases h
  · rename_i hc
    have := checkWrites_eq_none_iff.mp hc
    rw [List.length_eq_zero_iff] at this
    exact ⟨this, by injection h with h; exact h.symm⟩

theorem withWrites_of_ok {s : State} {a : Nat} {bs : List Byte} {f : State → State}
    (h : 0x1FF < a ∧ a + bs.length ≤ 0x1000) : withWrites s a bs f = .next (f (s.setBytes a bs)) := by
  unfold withWrites
  rw [checkWrites_eq_none_iff.mpr (.inr h)]

/-! ### Fetch (R55) -/

theorem fetchable_iff {pc : Word} : fetchable pc = true ↔ pc.toNat % 2 = 0 ∧ pc.toNat + 1 ≤ 0xFFF := by
  simp [fetchable]

/-- A fetch that answers a word read it big-endian at a legal PC. -/
theorem fetch_ok {s : State} {w : Word} (h : fetch s = .ok w) :
    s.pc.toNat % 2 = 0 ∧ s.pc.toNat + 1 ≤ 0xFFF ∧ w = wordOfBytes (s.byte s.pc.toNat) (s.byte (s.pc.toNat + 1)) := by
  unfold fetch at h
  split at h
  · rename_i hf
    have := fetchable_iff.mp hf
    exact ⟨this.1, this.2, (Except.ok.inj h).symm⟩
  · cases h

theorem fetch_error {s : State} {e : Fault} (h : fetch s = .error e) :
    e = .invalidFetch s.pc ∧ ¬(s.pc.toNat % 2 = 0 ∧ s.pc.toNat + 1 ≤ 0xFFF) := by
  unfold fetch at h
  split at h
  · cases h
  · rename_i hf
    exact ⟨(Except.error.inj h).symm, fun hc => hf (fetchable_iff.mpr hc)⟩

/-- A step that answers a next state fetched a word, decoded it and executed the instruction. -/
theorem step_next {s t : State} (h : step s = .next t) :
    ∃ w i, fetch s = .ok w ∧ decodeWord w = .ok i ∧ exec i s = .next t := by
  unfold step at h
  split at h
  · cases h
  · rename_i w hw
    split at h
    · cases h
    · rename_i i hi
      exact ⟨w, i, hw, hi, h⟩

/-! ### Operand forms -/

/-- The digit operand is V[X] when V[X] is below 16. -/
theorem digitOperand_eq_some_iff {s : State} {x : RegIdx} {k : Fin 16} :
    digitOperand s x = some k ↔ (s.getV x).toNat = k.val := by
  unfold digitOperand
  split
  · simp [Fin.ext_iff]
  · have := k.isLt
    simp; omega

theorem digitOperand_eq_none_iff {s : State} {x : RegIdx} : digitOperand s x = none ↔ 15 < (s.getV x).toNat := by
  unfold digitOperand
  split <;> simp <;> omega

theorem mem_keyNumbers (k : Fin 16) : k ∈ keyNumbers := by revert k; decide

theorem keyNumbers_sorted : keyNumbers.Pairwise (· < ·) := by decide

theorem lowestKey_eq_none_iff {s : State} : lowestKey s = none ↔ ∀ k, s.key k = false := by
  unfold lowestKey
  rw [List.find?_eq_none]
  constructor
  · intro h k; simpa using h k (mem_keyNumbers k)
  · intro h k _; simp [h k]

/-- The lowest pressed key is pressed and every lower key is released (R172). -/
theorem lowestKey_eq_some_iff {s : State} {k : Fin 16} :
    lowestKey s = some k ↔ s.key k = true ∧ ∀ j, j < k → s.key j = false := by
  have key : ∀ k', lowestKey s = some k' → s.key k' = true ∧ ∀ j, j < k' → s.key j = false := by
    intro k' h
    obtain ⟨hp, as, bs, hl, hb⟩ := List.find?_eq_some_iff_append.mp h
    refine ⟨by simpa using hp, fun j hj => ?_⟩
    have hm : j ∈ as := by
      have hj' := mem_keyNumbers j
      have hs := keyNumbers_sorted
      rw [hl] at hj' hs
      rcases List.mem_append.mp hj' with h1 | h1
      · exact h1
      · rcases List.mem_cons.mp h1 with h2 | h2
        · exact absurd hj (h2 ▸ lt_irrefl _)
        · have := (List.pairwise_cons.mp (List.pairwise_append.mp hs).2.1).1 j h2
          exact absurd hj (not_lt.mpr this.le)
    simpa using hb j hm
  refine ⟨key k, fun ⟨h1, h2⟩ => ?_⟩
  cases hc : lowestKey s with
  | none => rw [lowestKey_eq_none_iff.mp hc k] at h1; cases h1
  | some k' =>
    obtain ⟨g1, g2⟩ := key k' hc
    rcases lt_trichotomy k k' with h | h | h
    · rw [g2 k h] at h1; cases h1
    · rw [h]
    · rw [h2 k' h] at g1; cases g1

theorem regsFrom_length (s : State) : ∀ (n k : Nat), k + n ≤ 16 → (regsFrom s k n).length = n
  | 0, _, _ => rfl
  | n + 1, k, h => by
    unfold regsFrom
    rw [dif_pos (by omega), List.length_cons, regsFrom_length s n (k + 1) (by omega)]

theorem regsFrom_getElem (s : State) : ∀ (n k j : Nat) (h : k + n ≤ 16) (hj : j < n),
    (regsFrom s k n)[j]'(by rw [regsFrom_length s n k h]; exact hj) = s.getV ⟨k + j, by omega⟩
  | n + 1, k, 0, h, _ => by
    simp only [regsFrom, dif_pos (show k < 16 by omega), List.getElem_cons_zero, Nat.add_zero]
  | n + 1, k, j + 1, h, hj => by
    have := regsFrom_getElem s n (k + 1) j (by omega) (by omega)
    simp only [regsFrom, dif_pos (show k < 16 by omega), List.getElem_cons_succ, this]
    congr 1
    exact Fin.ext (by simp; omega)

@[simp] theorem regsUpTo_length (s : State) (x : RegIdx) : (regsUpTo s x).length = x.val + 1 :=
  regsFrom_length s _ 0 (by omega)

/-- Byte k of V0..VX is V[k]. -/
theorem regsUpTo_getElem (s : State) (x r : RegIdx) (h : r ≤ x) :
    (regsUpTo s x)[r.val]'(by rw [regsUpTo_length]; exact Nat.lt_succ_of_le h) = s.getV r := by
  have h' : r.val ≤ x.val := h
  have := regsFrom_getElem s (x.val + 1) 0 r.val (by omega) (by omega)
  simp only [regsUpTo, this]
  congr 1
  exact Fin.ext (by simp)

/-- Loading registers changes V alone. -/
theorem loadRegs_eq : ∀ (bs : List Byte) (s : State) (k : Nat), loadRegs s k bs = { s with v := (loadRegs s k bs).v }
  | [], _, _ => rfl
  | b :: rest, s, k => by
    unfold loadRegs
    split
    · rw [loadRegs_eq rest]; rfl
    · rfl

@[simp] theorem loadRegs_i (s : State) (k : Nat) (bs : List Byte) : (loadRegs s k bs).i = s.i := by rw [loadRegs_eq]
@[simp] theorem loadRegs_pc (s : State) (k : Nat) (bs : List Byte) : (loadRegs s k bs).pc = s.pc := by rw [loadRegs_eq]
@[simp] theorem loadRegs_sp (s : State) (k : Nat) (bs : List Byte) : (loadRegs s k bs).sp = s.sp := by rw [loadRegs_eq]
@[simp] theorem loadRegs_stack (s : State) (k : Nat) (bs : List Byte) : (loadRegs s k bs).stack = s.stack := by rw [loadRegs_eq]
@[simp] theorem loadRegs_dt (s : State) (k : Nat) (bs : List Byte) : (loadRegs s k bs).dt = s.dt := by rw [loadRegs_eq]
@[simp] theorem loadRegs_st (s : State) (k : Nat) (bs : List Byte) : (loadRegs s k bs).st = s.st := by rw [loadRegs_eq]
@[simp] theorem loadRegs_keys (s : State) (k : Nat) (bs : List Byte) : (loadRegs s k bs).keys = s.keys := by rw [loadRegs_eq]
@[simp] theorem loadRegs_disp (s : State) (k : Nat) (bs : List Byte) : (loadRegs s k bs).disp = s.disp := by rw [loadRegs_eq]
@[simp] theorem loadRegs_cfg (s : State) (k : Nat) (bs : List Byte) : (loadRegs s k bs).cfg = s.cfg := by rw [loadRegs_eq]
@[simp] theorem loadRegs_draws (s : State) (k : Nat) (bs : List Byte) : (loadRegs s k bs).draws = s.draws := by rw [loadRegs_eq]
@[simp] theorem loadRegs_mem (s : State) (k : Nat) (bs : List Byte) : (loadRegs s k bs).mem = s.mem := by rw [loadRegs_eq]

@[simp] theorem loadRegs_byte (s : State) (k : Nat) (bs : List Byte) (q : Nat) : (loadRegs s k bs).byte q = s.byte q := by simp [State.byte]
@[simp] theorem loadRegs_key (s : State) (k : Nat) (bs : List Byte) (q : Fin 16) : (loadRegs s k bs).key q = s.key q := by simp [State.key]
@[simp] theorem loadRegs_pixel (s : State) (k : Nat) (bs : List Byte) (cx : Fin 64) (cy : Fin 32) : (loadRegs s k bs).pixel cx cy = s.pixel cx cy := by simp [State.pixel]

/-- Register r after loading bytes into V[k], V[k+1], ... -/
theorem loadRegs_getV : ∀ (bs : List Byte) (s : State) (k : Nat) (r : RegIdx), k + bs.length ≤ 16 →
    (loadRegs s k bs).getV r = if h : k ≤ r.val ∧ r.val - k < bs.length then bs[r.val - k]'h.2 else s.getV r
  | [], _, _, _, _ => by simp [loadRegs]
  | b :: rest, s, k, r, hk => by
    simp only [List.length_cons] at hk
    have hlt : k < 16 := by omega
    simp only [loadRegs, dif_pos hlt]
    rw [loadRegs_getV rest _ (k + 1) r (by omega)]
    by_cases hr : r.val = k
    · have hr' : r = ⟨k, hlt⟩ := Fin.ext hr
      subst hr'
      simp
    · have hr' : r ≠ ⟨k, hlt⟩ := fun h => hr (congrArg Fin.val h)
      rw [State.setV_getV_of_ne _ _ hr']
      by_cases hc : k + 1 ≤ r.val ∧ r.val - (k + 1) < rest.length
      · have hc' : k ≤ r.val ∧ r.val - k < (b :: rest).length := by simp only [List.length_cons]; omega
        rw [dif_pos hc, dif_pos hc']
        obtain ⟨j, hj⟩ : ∃ j, r.val - k = j + 1 := ⟨r.val - k - 1, by omega⟩
        simp only [hj, List.getElem_cons_succ]
        congr 1; omega
      · have hc' : ¬(k ≤ r.val ∧ r.val - k < (b :: rest).length) := by simp only [List.length_cons]; omega
        rw [dif_neg hc, dif_neg hc']

@[simp] theorem afterAccess_v (s : State) (x : RegIdx) : (afterAccess s x).v = s.v := by unfold afterAccess; split <;> rfl
@[simp] theorem afterAccess_pc (s : State) (x : RegIdx) : (afterAccess s x).pc = s.pc := by unfold afterAccess; split <;> rfl
@[simp] theorem afterAccess_sp (s : State) (x : RegIdx) : (afterAccess s x).sp = s.sp := by unfold afterAccess; split <;> rfl
@[simp] theorem afterAccess_stack (s : State) (x : RegIdx) : (afterAccess s x).stack = s.stack := by unfold afterAccess; split <;> rfl
@[simp] theorem afterAccess_dt (s : State) (x : RegIdx) : (afterAccess s x).dt = s.dt := by unfold afterAccess; split <;> rfl
@[simp] theorem afterAccess_st (s : State) (x : RegIdx) : (afterAccess s x).st = s.st := by unfold afterAccess; split <;> rfl
@[simp] theorem afterAccess_keys (s : State) (x : RegIdx) : (afterAccess s x).keys = s.keys := by unfold afterAccess; split <;> rfl
@[simp] theorem afterAccess_disp (s : State) (x : RegIdx) : (afterAccess s x).disp = s.disp := by unfold afterAccess; split <;> rfl
@[simp] theorem afterAccess_cfg (s : State) (x : RegIdx) : (afterAccess s x).cfg = s.cfg := by unfold afterAccess; split <;> rfl
@[simp] theorem afterAccess_draws (s : State) (x : RegIdx) : (afterAccess s x).draws = s.draws := by unfold afterAccess; split <;> rfl
@[simp] theorem afterAccess_mem (s : State) (x : RegIdx) : (afterAccess s x).mem = s.mem := by unfold afterAccess; split <;> rfl

@[simp] theorem afterAccess_getV (s : State) (x : RegIdx) (r : RegIdx) : (afterAccess s x).getV r = s.getV r := by simp [State.getV]
@[simp] theorem afterAccess_byte (s : State) (x : RegIdx) (q : Nat) : (afterAccess s x).byte q = s.byte q := by simp [State.byte]
@[simp] theorem afterAccess_key (s : State) (x : RegIdx) (q : Fin 16) : (afterAccess s x).key q = s.key q := by simp [State.key]
@[simp] theorem afterAccess_pixel (s : State) (x : RegIdx) (cx : Fin 64) (cy : Fin 32) : (afterAccess s x).pixel cx cy = s.pixel cx cy := by simp [State.pixel]

/-- I after FX55 or FX65 (R153, R154). -/
theorem afterAccess_i (s : State) (x : RegIdx) :
    (afterAccess s x).i = if s.cfg.quirks.loadStoreIncI then s.i + BitVec.ofNat 16 (x.val + 1) else s.i := by
  unfold afterAccess; split <;> rfl

/-! ### One sprite pixel (R181) -/

theorem drawPixel_pixel (bit : Bool) (xc : Fin 64) (yr : Fin 32) (d : Display) (hit : Bool) (x : Fin 64) (y : Fin 32) :
    Display.pixel (drawPixel bit xc yr d hit).1 x y =
      Bool.xor (Display.pixel d x y) (bit && decide (x = xc ∧ y = yr)) := by
  unfold drawPixel
  cases bit
  · simp
  · simp only [if_true, Display.pixel_setPixel]
    by_cases h : x = xc ∧ y = yr
    · simp [h]
    · simp [h]

theorem drawPixel_hit (bit : Bool) (xc : Fin 64) (yr : Fin 32) (d : Display) (hit : Bool) :
    (drawPixel bit xc yr d hit).2 = (hit || (bit && Display.pixel d xc yr)) := by
  cases bit <;> simp [drawPixel]

end Sys2Proof.Machine
end

