-- ==== Sys2Proof/Laws/Exec.lean ====
section
/-! SUPPORT. What each meaning with more than one path can do, said once: if it answers a next state, then what held and which
state it is. The other meanings answer `.next` of one expression by definition. -/

namespace Sys2Proof.Machine

theorem execRet_next {s t : State} (h : execRet s = .next t) :
    0 < s.sp.val ∧ t.sp.val = s.sp.val - 1 ∧ (∀ k : Fin 16, k.val + 1 = s.sp.val → t.pc = s.stack.get k) ∧
      t = { s with sp := t.sp, pc := t.pc } := by
  unfold execRet at h
  cases hp : s.pop with
  | none => rw [hp] at h; cases h
  | some p =>
    obtain ⟨a, u⟩ := p
    rw [hp] at h
    injection h with h
    obtain ⟨h1, h2, h3, h4⟩ := State.pop_some hp
    subst h
    exact ⟨h1, h2, h3, by rw [h4]; rfl⟩

theorem execCall_next {nnn : Addr12} {s t : State} (h : execCall nnn s = .next t) :
    s.sp.val < 16 ∧ t.sp.val = s.sp.val + 1 ∧
      (∀ k : Fin 16, t.stack.get k = if k.val = s.sp.val then s.pc + 2 else s.stack.get k) ∧
      t = { s with stack := t.stack, sp := t.sp, pc := zext12 nnn } := by
  unfold execCall at h
  cases hp : s.push (s.pc + 2) with
  | none => rw [hp] at h; cases h
  | some u =>
    rw [hp] at h
    injection h with h
    obtain ⟨h1, h2, h3, h4⟩ := State.push_some hp
    subst h
    exact ⟨h1, h2, h3, by rw [h4]; rfl⟩

theorem execLdF_next {x : RegIdx} {s t : State} (h : execLdF x s = .next t) :
    ∃ d, digitOperand s x = some d ∧ t = (s.setI (BitVec.ofNat 16 (s.cfg.fontBase.val + 5 * d.val))).advance := by
  unfold execLdF at h
  split at h
  · cases h
  · rename_i d hd
    injection h with h
    exact ⟨d, hd, h.symm⟩

theorem execSkp_next {x : RegIdx} {s t : State} (h : execSkp x s = .next t) :
    ∃ k, digitOperand s x = some k ∧ t = s.skipIf (s.key k) := by
  unfold execSkp at h
  split at h
  · cases h
  · rename_i k hk
    injection h with h
    exact ⟨k, hk, h.symm⟩

theorem execSknp_next {x : RegIdx} {s t : State} (h : execSknp x s = .next t) :
    ∃ k, digitOperand s x = some k ∧ t = s.skipIf (!s.key k) := by
  unfold execSknp at h
  split at h
  · cases h
  · rename_i k hk
    injection h with h
    exact ⟨k, hk, h.symm⟩

/-- The key wait always answers: the same state with no key pressed, else the lowest key's number in V[X] (R172). -/
theorem execLdXK_next {x : RegIdx} {s t : State} (h : execLdXK x s = .next t) :
    (lowestKey s = none ∧ t = s) ∨
      ∃ k, lowestKey s = some k ∧ t = (s.setV x (BitVec.ofNat 8 k.val)).advance := by
  unfold execLdXK at h
  split at h
  · rename_i hk
    injection h with h
    exact .inl ⟨hk, h.symm⟩
  · rename_i k hk
    injection h with h
    exact .inr ⟨k, hk, h.symm⟩

theorem execLdB_next {x : RegIdx} {s t : State} (h : execLdB x s = .next t) :
    0x1FF < s.i.toNat ∧ s.i.toNat + 2 ≤ 0xFFF ∧ t = (s.setBytes s.i.toNat (bcdDigits (s.getV x))).advance := by
  obtain ⟨hr, ht⟩ := withWrites_next h
  have hl : (bcdDigits (s.getV x)).length = 3 := rfl
  have hd : dataAddr s = s.i.toNat := rfl
  rcases hr with hr | hr
  · simp [hr] at hl
  · exact ⟨by omega, by omega, ht⟩

theorem execLdMemX_next {x : RegIdx} {s t : State} (h : execLdMemX x s = .next t) :
    0x1FF < s.i.toNat ∧ s.i.toNat + x.val ≤ 0xFFF ∧
      t = (afterAccess (s.setBytes s.i.toNat (regsUpTo s x)) x).advance := by
  obtain ⟨hr, ht⟩ := withWrites_next h
  have hl := regsUpTo_length s x
  have hd : dataAddr s = s.i.toNat := rfl
  rcases hr with hr | hr
  · simp [hr] at hl
  · exact ⟨by omega, by omega, ht⟩

theorem execLdXMem_next {x : RegIdx} {s t : State} (h : execLdXMem x s = .next t) :
    s.i.toNat + x.val ≤ 0xFFF ∧ t = (afterAccess (loadRegs s 0 (s.bytes s.i.toNat (x.val + 1))) x).advance := by
  obtain ⟨hr, ht⟩ := withReads_next h
  have hd : dataAddr s = s.i.toNat := rfl
  exact ⟨by omega, ht⟩

theorem execDrw_next {x y : RegIdx} {n : Nibble} {s t : State} (h : execDrw x y n s = .next t) :
    (n.toNat = 0 ∨ s.i.toNat + n.toNat ≤ 0x1000) ∧
      t = ((s.setDisp (drawSprite s ((s.getV x).toNat % 64) ((s.getV y).toNat % 32) (s.bytes s.i.toNat n.toNat)).1).setV
        regF (flagByte (drawSprite s ((s.getV x).toNat % 64) ((s.getV y).toNat % 32)
          (s.bytes s.i.toNat n.toNat)).2)).advance := by
  obtain ⟨hr, ht⟩ := withReads_next h
  exact ⟨hr, ht⟩

end Sys2Proof.Machine
end

