-- ==== Sys2Proof/Laws/PerInstr.lean ====
section
/-! SUPPORT. Statements about every instruction as syntax. `RowBits`: the encoded word carries the fixed bits of its row of
spec/opcode_table.json. -/

namespace Sys2Proof.Laws

/-- The mask of an instruction's row (spec/opcode_table.json "mask"). -/
def rowMask : Instr → Word
  | .cls => 0xffff#16
  | .ret => 0xffff#16
  | .sys _ => 0xf000#16
  | .jp _ => 0xf000#16
  | .call _ => 0xf000#16
  | .seImm _ _ => 0xf000#16
  | .sneImm _ _ => 0xf000#16
  | .seReg _ _ => 0xf00f#16
  | .ldImm _ _ => 0xf000#16
  | .addImm _ _ => 0xf000#16
  | .ldReg _ _ => 0xf00f#16
  | .or _ _ => 0xf00f#16
  | .and _ _ => 0xf00f#16
  | .xor _ _ => 0xf00f#16
  | .addReg _ _ => 0xf00f#16
  | .sub _ _ => 0xf00f#16
  | .shr _ _ => 0xf00f#16
  | .subn _ _ => 0xf00f#16
  | .shl _ _ => 0xf00f#16
  | .sneReg _ _ => 0xf00f#16
  | .ldI _ => 0xf000#16
  | .jpV0 _ => 0xf000#16
  | .rnd _ _ => 0xf000#16
  | .drw _ _ _ => 0xf000#16
  | .skp _ => 0xf0ff#16
  | .sknp _ => 0xf0ff#16
  | .ldXDt _ => 0xf0ff#16
  | .ldXK _ => 0xf0ff#16
  | .ldDtX _ => 0xf0ff#16
  | .ldStX _ => 0xf0ff#16
  | .addI _ => 0xf0ff#16
  | .ldF _ => 0xf0ff#16
  | .ldB _ => 0xf0ff#16
  | .ldMemX _ => 0xf0ff#16
  | .ldXMem _ => 0xf0ff#16

/-- The fixed bits of an instruction's row (spec/opcode_table.json "match"). -/
def rowMatch : Instr → Word
  | .cls => 0x00e0#16
  | .ret => 0x00ee#16
  | .sys _ => 0x0000#16
  | .jp _ => 0x1000#16
  | .call _ => 0x2000#16
  | .seImm _ _ => 0x3000#16
  | .sneImm _ _ => 0x4000#16
  | .seReg _ _ => 0x5000#16
  | .ldImm _ _ => 0x6000#16
  | .addImm _ _ => 0x7000#16
  | .ldReg _ _ => 0x8000#16
  | .or _ _ => 0x8001#16
  | .and _ _ => 0x8002#16
  | .xor _ _ => 0x8003#16
  | .addReg _ _ => 0x8004#16
  | .sub _ _ => 0x8005#16
  | .shr _ _ => 0x8006#16
  | .subn _ _ => 0x8007#16
  | .shl _ _ => 0x800e#16
  | .sneReg _ _ => 0x9000#16
  | .ldI _ => 0xa000#16
  | .jpV0 _ => 0xb000#16
  | .rnd _ _ => 0xc000#16
  | .drw _ _ _ => 0xd000#16
  | .skp _ => 0xe09e#16
  | .sknp _ => 0xe0a1#16
  | .ldXDt _ => 0xf007#16
  | .ldXK _ => 0xf00a#16
  | .ldDtX _ => 0xf015#16
  | .ldStX _ => 0xf018#16
  | .addI _ => 0xf01e#16
  | .ldF _ => 0xf029#16
  | .ldB _ => 0xf033#16
  | .ldMemX _ => 0xf055#16
  | .ldXMem _ => 0xf065#16

/-- The word of the instruction, under its row's mask, is its row's match. -/
def RowBits.Statement (i : Instr) : Prop := encode i &&& rowMask i = rowMatch i

/-- A base with no bit below bit 12 is all that the class mask leaves of format ANNN. -/
theorem encodeANNN_and_mask (base : Word) (nnn : Addr12) (h : base &&& 0x0fff#16 = 0#16) :
    encodeANNN base nnn &&& 0xf000#16 = base := by
  apply BitVec.eq_of_getLsbD_eq
  intro i hi
  replace h := congrArg (fun b : Word => b.getLsbD i) h
  unfold encodeANNN
  interval_cases i <;> simp_all

theorem encodeAX_and_mask (base : Word) (x : RegIdx) (h : base &&& 0x0f00#16 = 0#16) :
    encodeAX base x &&& 0xf0ff#16 = base := by
  apply BitVec.eq_of_getLsbD_eq
  intro i hi
  replace h := congrArg (fun b : Word => b.getLsbD i) h
  unfold encodeAX
  interval_cases i <;> simp_all

theorem encodeAXNN_and_mask (base : Word) (x : RegIdx) (nn : Byte) (h : base &&& 0x0fff#16 = 0#16) :
    encodeAXNN base x nn &&& 0xf000#16 = base := by
  apply BitVec.eq_of_getLsbD_eq
  intro i hi
  replace h := congrArg (fun b : Word => b.getLsbD i) h
  unfold encodeAXNN encodeAX
  interval_cases i <;> simp_all

theorem encodeAXY_and_mask (base : Word) (x y : RegIdx) (h : base &&& 0x0ff0#16 = 0#16) :
    encodeAXY base x y &&& 0xf00f#16 = base := by
  apply BitVec.eq_of_getLsbD_eq
  intro i hi
  replace h := congrArg (fun b : Word => b.getLsbD i) h
  unfold encodeAXY encodeAX
  interval_cases i <;> simp_all

theorem encodeAXYN_and_mask (base : Word) (x y : RegIdx) (n : Nibble) (h : base &&& 0x0fff#16 = 0#16) :
    encodeAXYN base x y n &&& 0xf000#16 = base := by
  apply BitVec.eq_of_getLsbD_eq
  intro i hi
  replace h := congrArg (fun b : Word => b.getLsbD i) h
  unfold encodeAXYN encodeAXY encodeAX
  interval_cases i <;> simp_all

theorem RowBits.cls : RowBits.Statement .cls := by unfold RowBits.Statement; decide

theorem RowBits.ret : RowBits.Statement .ret := by unfold RowBits.Statement; decide

theorem RowBits.sys (nnn : Addr12) : RowBits.Statement (.sys nnn) :=
  encodeANNN_and_mask _ _ (by decide)

theorem RowBits.jp (nnn : Addr12) : RowBits.Statement (.jp nnn) :=
  encodeANNN_and_mask _ _ (by decide)

theorem RowBits.call (nnn : Addr12) : RowBits.Statement (.call nnn) :=
  encodeANNN_and_mask _ _ (by decide)

theorem RowBits.seImm (x : RegIdx) (nn : Byte) : RowBits.Statement (.seImm x nn) :=
  encodeAXNN_and_mask _ _ _ (by decide)

theorem RowBits.sneImm (x : RegIdx) (nn : Byte) : RowBits.Statement (.sneImm x nn) :=
  encodeAXNN_and_mask _ _ _ (by decide)

theorem RowBits.seReg (x y : RegIdx) : RowBits.Statement (.seReg x y) :=
  encodeAXY_and_mask _ _ _ (by decide)

theorem RowBits.ldImm (x : RegIdx) (nn : Byte) : RowBits.Statement (.ldImm x nn) :=
  encodeAXNN_and_mask _ _ _ (by decide)

theorem RowBits.addImm (x : RegIdx) (nn : Byte) : RowBits.Statement (.addImm x nn) :=
  encodeAXNN_and_mask _ _ _ (by decide)

theorem RowBits.ldReg (x y : RegIdx) : RowBits.Statement (.ldReg x y) :=
  encodeAXY_and_mask _ _ _ (by decide)

theorem RowBits.or (x y : RegIdx) : RowBits.Statement (.or x y) :=
  encodeAXY_and_mask _ _ _ (by decide)

theorem RowBits.and (x y : RegIdx) : RowBits.Statement (.and x y) :=
  encodeAXY_and_mask _ _ _ (by decide)

theorem RowBits.xor (x y : RegIdx) : RowBits.Statement (.xor x y) :=
  encodeAXY_and_mask _ _ _ (by decide)

theorem RowBits.addReg (x y : RegIdx) : RowBits.Statement (.addReg x y) :=
  encodeAXY_and_mask _ _ _ (by decide)

theorem RowBits.sub (x y : RegIdx) : RowBits.Statement (.sub x y) :=
  encodeAXY_and_mask _ _ _ (by decide)

theorem RowBits.shr (x y : RegIdx) : RowBits.Statement (.shr x y) :=
  encodeAXY_and_mask _ _ _ (by decide)

theorem RowBits.subn (x y : RegIdx) : RowBits.Statement (.subn x y) :=
  encodeAXY_and_mask _ _ _ (by decide)

theorem RowBits.shl (x y : RegIdx) : RowBits.Statement (.shl x y) :=
  encodeAXY_and_mask _ _ _ (by decide)

theorem RowBits.sneReg (x y : RegIdx) : RowBits.Statement (.sneReg x y) :=
  encodeAXY_and_mask _ _ _ (by decide)

theorem RowBits.ldI (nnn : Addr12) : RowBits.Statement (.ldI nnn) :=
  encodeANNN_and_mask _ _ (by decide)

theorem RowBits.jpV0 (nnn : Addr12) : RowBits.Statement (.jpV0 nnn) :=
  encodeANNN_and_mask _ _ (by decide)

theorem RowBits.rnd (x : RegIdx) (nn : Byte) : RowBits.Statement (.rnd x nn) :=
  encodeAXNN_and_mask _ _ _ (by decide)

theorem RowBits.drw (x y : RegIdx) (n : Nibble) : RowBits.Statement (.drw x y n) :=
  encodeAXYN_and_mask _ _ _ _ (by decide)

theorem RowBits.skp (x : RegIdx) : RowBits.Statement (.skp x) :=
  encodeAX_and_mask _ _ (by decide)

theorem RowBits.sknp (x : RegIdx) : RowBits.Statement (.sknp x) :=
  encodeAX_and_mask _ _ (by decide)

theorem RowBits.ldXDt (x : RegIdx) : RowBits.Statement (.ldXDt x) :=
  encodeAX_and_mask _ _ (by decide)

theorem RowBits.ldXK (x : RegIdx) : RowBits.Statement (.ldXK x) :=
  encodeAX_and_mask _ _ (by decide)

theorem RowBits.ldDtX (x : RegIdx) : RowBits.Statement (.ldDtX x) :=
  encodeAX_and_mask _ _ (by decide)

theorem RowBits.ldStX (x : RegIdx) : RowBits.Statement (.ldStX x) :=
  encodeAX_and_mask _ _ (by decide)

theorem RowBits.addI (x : RegIdx) : RowBits.Statement (.addI x) :=
  encodeAX_and_mask _ _ (by decide)

theorem RowBits.ldF (x : RegIdx) : RowBits.Statement (.ldF x) :=
  encodeAX_and_mask _ _ (by decide)

theorem RowBits.ldB (x : RegIdx) : RowBits.Statement (.ldB x) :=
  encodeAX_and_mask _ _ (by decide)

theorem RowBits.ldMemX (x : RegIdx) : RowBits.Statement (.ldMemX x) :=
  encodeAX_and_mask _ _ (by decide)

theorem RowBits.ldXMem (x : RegIdx) : RowBits.Statement (.ldXMem x) :=
  encodeAX_and_mask _ _ (by decide)

end Sys2Proof.Laws
end

