-- ==== Sys2Proof/Tests/Slice0.lean ====
section
/-! SUPPORT. The model's own tests: decoding of words written out from the spec's encodings, ill-formed terms, vectors of
95_test_vectors.md on one step each, and a witness for the hypotheses of each statement. -/

namespace Sys2Proof.Tests

open Sys2Proof.Machine

/-! ### Helpers -/

/-- The start state of 95_test_vectors.md with a word at 0x200. -/
def startAt (w : Nat) : State := State.reset.withFetchWord 16 w

/-- The start state with some quirks. -/
def startWith (q : Quirks) (w : Nat) : State := (State.construct { quirks := q }).withFetchWord 16 w

/-- The next state of an outcome. -/
def nextOf : Host.Outcome State Fault Refusal → Option State
  | .next t => some t
  | .fault _ => none
  | .refused _ => none

/-- The error of an outcome. -/
def faultOf : Host.Outcome State Fault Refusal → Option Fault
  | .next _ => none
  | .fault e => some e
  | .refused _ => none

/-- What is seen of the next state of a step. -/
def after {α : Type} (s : State) (f : State → α) : Option α := (nextOf (step s)).map f

/-- V[x], VF and PC. -/
def seen (x : RegIdx) (t : State) : Byte × Byte × Word := (t.getV x, t.getV 15, t.pc)

/-! ### Decoding (30_encoding.md R85, R95, R96): every constructor, and words that decode to nothing -/

theorem test_decode_cls : decodeTableWord 16 0x00E0 = some (.cls) := by decide
theorem test_decode_ret : decodeTableWord 16 0x00EE = some (.ret) := by decide
theorem test_decode_sys : decodeTableWord 16 0x0123 = some (.sys 0x123) := by decide
theorem test_decode_jp : decodeTableWord 16 0x1234 = some (.jp 0x234) := by decide
theorem test_decode_call : decodeTableWord 16 0x2300 = some (.call 0x300) := by decide
theorem test_decode_seImm : decodeTableWord 16 0x3110 = some (.seImm 1 0x10) := by decide
theorem test_decode_sneImm : decodeTableWord 16 0x4110 = some (.sneImm 1 0x10) := by decide
theorem test_decode_seReg : decodeTableWord 16 0x5230 = some (.seReg 2 3) := by decide
theorem test_decode_ldImm : decodeTableWord 16 0x6A42 = some (.ldImm 0xA 0x42) := by decide
theorem test_decode_addImm : decodeTableWord 16 0x7203 = some (.addImm 2 0x03) := by decide
theorem test_decode_ldReg : decodeTableWord 16 0x8010 = some (.ldReg 0 1) := by decide
theorem test_decode_or : decodeTableWord 16 0x8011 = some (.or 0 1) := by decide
theorem test_decode_and : decodeTableWord 16 0x8012 = some (.and 0 1) := by decide
theorem test_decode_xor : decodeTableWord 16 0x8013 = some (.xor 0 1) := by decide
theorem test_decode_addReg : decodeTableWord 16 0x8374 = some (.addReg 3 7) := by decide
theorem test_decode_sub : decodeTableWord 16 0x8F15 = some (.sub 15 1) := by decide
theorem test_decode_shr : decodeTableWord 16 0x8A06 = some (.shr 0xA 0) := by decide
theorem test_decode_subn : decodeTableWord 16 0x8017 = some (.subn 0 1) := by decide
theorem test_decode_shl : decodeTableWord 16 0x84BE = some (.shl 4 0xB) := by decide
theorem test_decode_sneReg : decodeTableWord 16 0x9230 = some (.sneReg 2 3) := by decide
theorem test_decode_ldI : decodeTableWord 16 0xA2F0 = some (.ldI 0x2F0) := by decide
theorem test_decode_jpV0 : decodeTableWord 16 0xB300 = some (.jpV0 0x300) := by decide
theorem test_decode_rnd : decodeTableWord 16 0xC20F = some (.rnd 2 0x0F) := by decide
theorem test_decode_drw : decodeTableWord 16 0xD125 = some (.drw 1 2 5) := by decide
theorem test_decode_skp : decodeTableWord 16 0xE59E = some (.skp 5) := by decide
theorem test_decode_sknp : decodeTableWord 16 0xE5A1 = some (.sknp 5) := by decide
theorem test_decode_ldXDt : decodeTableWord 16 0xF107 = some (.ldXDt 1) := by decide
theorem test_decode_ldXK : decodeTableWord 16 0xF50A = some (.ldXK 5) := by decide
theorem test_decode_ldDtX : decodeTableWord 16 0xF015 = some (.ldDtX 0) := by decide
theorem test_decode_ldStX : decodeTableWord 16 0xF218 = some (.ldStX 2) := by decide
theorem test_decode_addI : decodeTableWord 16 0xF01E = some (.addI 0) := by decide
theorem test_decode_ldF : decodeTableWord 16 0xF329 = some (.ldF 3) := by decide
theorem test_decode_ldB : decodeTableWord 16 0xF733 = some (.ldB 7) := by decide
theorem test_decode_ldMemX : decodeTableWord 16 0xF555 = some (.ldMemX 5) := by decide
theorem test_decode_ldXMem : decodeTableWord 16 0xFA65 = some (.ldXMem 0xA) := by decide

theorem test_decode_unknown_8018 : decodeTableWord 16 0x8018 = none := by decide
theorem test_decode_unknown_5231 : decodeTableWord 16 0x5231 = none := by decide
theorem test_decode_unknown_E500 : decodeTableWord 16 0xE500 = none := by decide
theorem test_decode_unknown_F5FF : decodeTableWord 16 0xF5FF = none := by decide
theorem test_decode_truncated : (match decodeBytes [0x12] with | .error e => e == .truncated | .ok _ => false) = true := by
  decide

/-- The two words that SYS excludes are no SYS (the row's "excludes"). -/
theorem test_illFormed_sys_0E0 : (Instr.sys 0x0E0).wellFormed = false := by decide
theorem test_illFormed_sys_0EE : (Instr.sys 0x0EE).wellFormed = false := by decide

/-! ### Fetch (vectors FE1 to FE3, FE9) -/

theorem test_FE1 : faultOf (step { startAt 0 with pc := 0xFFF }) = some (.invalidFetch 0xFFF) := by decide
theorem test_FE2 : faultOf (step { startAt 0 with pc := 0x1000 }) = some (.invalidFetch 0x1000) := by decide
theorem test_FE3 : after (State.withFetchWord { State.reset with pc := 0xFFE } 16 0x6042) (seen 0) =
    some (0x42, 0, 0x1000) := by decide
theorem test_FE9 : faultOf (step (startAt 0x0123)) = some (.unknownOpcode 0x0123) := by decide

/-! ### Arithmetic (vectors AR1 to AR25) -/

theorem test_AR1 : after (startAt 0x6A42) (seen 10) = some (0x42, 0, 0x202) := by decide
theorem test_AR2 : after (((startAt 0x7203).setV 2 0xFE).setV 15 7) (seen 2) = some (1, 7, 0x202) := by decide
theorem test_AR4 : after ((startAt 0x8010).setV 1 0x77) (seen 0) = some (0x77, 0, 0x202) := by decide
theorem test_AR5 : after ((((startAt 0x8011).setV 0 0x0F).setV 1 0xF0).setV 15 9) (seen 0) = some (0xFF, 9, 0x202) := by
  decide
theorem test_AR6 : after ((((startAt 0x8012).setV 0 0x3C).setV 1 0x0F).setV 15 9) (seen 0) = some (0x0C, 9, 0x202) := by
  decide
theorem test_AR7 : after ((((startAt 0x8013).setV 0 0xFF).setV 1 0x0F).setV 15 9) (seen 0) = some (0xF0, 9, 0x202) := by
  decide
theorem test_AR10 : after (((startAt 0x8014).setV 0 0xFF).setV 1 1) (seen 0) = some (0, 1, 0x202) := by decide
theorem test_AR12 : after (((startAt 0x8F04).setV 15 0xF0).setV 0 0x20) (seen 15) = some (1, 1, 0x202) := by decide
theorem test_AR15 : after ((startAt 0x8015).setV 1 1) (seen 0) = some (0xFF, 0, 0x202) := by decide
theorem test_AR16 : after (((startAt 0x8F15).setV 15 3).setV 1 5) (seen 15) = some (0, 0, 0x202) := by decide
theorem test_AR17 : after (((startAt 0x8016).setV 0 5).setV 1 0xFF) (seen 0) = some (2, 1, 0x202) := by decide
theorem test_AR18 : after (((startWith { shiftVy := true } 0x8016).setV 0 5).setV 1 0xFF) (seen 0) =
    some (0x7F, 1, 0x202) := by decide
theorem test_AR20 : after (((startAt 0x8017).setV 0 10).setV 1 5) (seen 0) = some (0xFB, 0, 0x202) := by decide
theorem test_AR22 : after (((startAt 0x8017).setV 0 9).setV 1 9) (seen 0) = some (0, 1, 0x202) := by decide
theorem test_AR23 : after (((startAt 0x801E).setV 0 0x81).setV 1 0x40) (seen 0) = some (2, 1, 0x202) := by decide
theorem test_AR24 : after (((startWith { shiftVy := true } 0x801E).setV 0 0x81).setV 1 0x40) (seen 0) =
    some (0x80, 0, 0x202) := by decide

/-! ### Control flow (vectors CF1 to CF16) -/

theorem test_CF1 : after (startAt 0x1234) State.pc = some 0x234 := by decide
theorem test_CF2 : after (startAt 0x2300) (fun t => (t.pc, t.sp, t.stack.get 0)) = some (0x300, 1, 0x202) := by decide
theorem test_CF3 : faultOf (step { startAt 0x2300 with sp := 16 }) = some (.stackOverflow 0x202) := by decide
theorem test_CF5 : after { startAt 0x00EE with sp := 1, stack := Vector.replicate 16 0x456 } (fun t => (t.pc, t.sp)) =
    some (0x456, 0) := by decide
theorem test_CF6 : faultOf (step (startAt 0x00EE)) = some .stackUnderflow := by decide
theorem test_CF8 : after (((startWith { jumpVx := true } 0xB300).setV 0 4).setV 3 0x10) State.pc = some 0x310 := by decide
theorem test_CF9 : after ((startAt 0xBFFF).setV 0 0xFF) State.pc = some 0x10FE := by decide
theorem test_CF10 : after ((startAt 0x3110).setV 1 0x10) State.pc = some 0x204 := by decide
theorem test_CF12 : after ((startAt 0x4110).setV 1 0x10) State.pc = some 0x202 := by decide
theorem test_CF14 : after (((startAt 0x5230).setV 2 7).setV 3 7) State.pc = some 0x204 := by decide
theorem test_CF15 : after (((startAt 0x9230).setV 2 7).setV 3 8) State.pc = some 0x204 := by decide

/-! ### Index and memory (vectors ME1 to ME18) -/

theorem test_ME1 : after (startAt 0xA2F0) State.i = some 0x2F0 := by decide
theorem test_ME3 : after (((startAt 0xF01E).setI 0xFFF).setV 0 1) State.i = some 0x1000 := by decide
theorem test_ME4 : after (((startAt 0xF01E).setI 0xFFFF).setV 0 2) State.i = some 1 := by decide
theorem test_ME5 : after ((startAt 0xF329).setV 3 0xA) State.i = some 0x82 := by decide
theorem test_ME6 : faultOf (step ((startAt 0xF329).setV 3 0x10)) = some (.invalidOperand 0xF329) := by decide
theorem test_ME8 : after ((((startWith { loadStoreIncI := true } 0xF155).setI 0x300).setV 0 1).setV 1 2)
    (fun t => (t.byte 0x300, t.byte 0x301, t.i)) = some (1, 2, 0x302) := by decide
theorem test_ME9 : faultOf (step ((startAt 0xFF55).setI 0xFF1)) = some (.memoryOutOfBounds 0x1000) := by decide
theorem test_ME12 : after ((startAt 0xF165).setI 0x050) (fun t => (t.getV 0, t.getV 1, t.i)) =
    some (0xF0, 0x90, 0x050) := by decide
theorem test_ME14 : faultOf (step ((startAt 0xF065).setI 0x1000)) = some (.memoryOutOfBounds 0x1000) := by decide
theorem test_ME16 : after (((startAt 0xF733).setI 0x400).setV 7 0xFF)
    (fun t => (t.byte 0x400, t.byte 0x401, t.byte 0x402)) = some (2, 5, 5) := by decide
theorem test_ME18 : faultOf (step (((startAt 0xF733).setI 0x1FF).setV 7 9)) = some (.reservedWrite 0x1FF) := by decide

/-! ### Keypad, random draw and timers (vectors KY2 to KY7, RT1 to RT6) -/

theorem test_KY2 : after (((startAt 0xE39E).setV 3 4).setKey 4 true) State.pc = some 0x204 := by decide
theorem test_KY4 : after (((startAt 0xE3A1).setV 3 4).setKey 4 true) State.pc = some 0x202 := by decide
theorem test_KY5 : faultOf (step ((startAt 0xE59E).setV 5 0x10)) = some (.invalidOperand 0xE59E) := by decide
theorem test_KY6 : (after (startAt 0xF50A) (fun t => (t.pc, t.getV 5)), waiting (startAt 0xF50A)) =
    (some (0x200, 0), true) := by decide
theorem test_KY7 : after (((startAt 0xF30A).setKey 9 true).setKey 4 true) (seen 3) = some (4, 0, 0x202) := by decide
theorem test_RT1 : (rndWith 0xA7 2 0x0F State.reset).getV 2 = 0x07 := by decide
theorem test_RT3 : after ((startAt 0xF107).setDt 0x3C) (seen 1) = some (0x3C, 0, 0x202) := by decide
theorem test_RT4 : after ((startAt 0xF015).setV 0 0x3C) State.dt = some 0x3C := by decide
theorem test_RT5 : after ((startAt 0xF218).setV 2 5) (fun t => (t.st, t.soundActive)) = some (5, true) := by decide
theorem test_RT6 : ((startAt 0).setSt 1).tickTimers.soundActive = false := by decide

/-! ### Display (vectors DI3, DI7, DI11); the kernel evaluates the display -/

theorem test_DI3 : after (((((startWith { clipV := false } 0xD013).setBytes 0x300 [0x80, 0x80, 0x80]).setI 0x300).setV 1 30))
    (fun t => (t.pixel 0 30, t.pixel 0 31, t.pixel 0 0, t.getV 15)) = some (true, true, true, 0) := by decide +kernel
theorem test_DI7 : after ((((startAt 0xD001).setByte 0x300 0xC0).setI 0x300).setDisp
      (Display.setPixel (Display.setPixel Display.blank 1 0 true) 5 0 true))
    (fun t => (t.pixel 0 0, t.pixel 5 0, t.pixel 1 0, t.getV 15)) = some (true, true, false, 1) := by decide +kernel
theorem test_DI11 : after ((startAt 0x00E0).setDisp (Display.setPixel Display.blank 3 3 true)) (fun t => t.pixel 3 3) =
    some false := by decide +kernel

/-! ### Witnesses: for each statement with hypotheses, a state and operands that meet them, and for a statement of several
clauses one for each clause, at the edge of its range -/

theorem test_witness_EncodeThenDecode : (Instr.sys 0x0E1).wellFormed = true := by decide

theorem test_witness_DecodeThenEncode : decodeWord 0x8FF7 = .ok (.subn 15 15) := by rfl

theorem test_witness_IllegalWordsAreTheListed :
    illegalWord 0x500F ∧ illegalWord 0x0000 ∧ illegalWord 0x800F ∧ ¬illegalWord 0x800E ∧ ¬illegalWord 0x00E0 ∧
      illegalWord 0xE09D ∧ illegalWord 0xF066 ∧ illegalWord 0x9001 := by
  refine ⟨?_, ?_, ?_, ?_, ?_, ?_, ?_, ?_⟩ <;> (unfold illegalWord; decide)

/-- An odd PC; the least PC past the end; the last legal PC. -/
theorem test_witness_FetchChecksThenReadsBigEndian :
    (0xFFD : Word).toNat % 2 ≠ 0 ∧ 0xFFF < (0x1000 : Word).toNat + 1 ∧
      ((0xFFE : Word).toNat % 2 = 0 ∧ (0xFFE : Word).toNat + 1 ≤ 0xFFF) := by decide

theorem test_witness_StepRunsDecodedInstr :
    (startAt 0x00E0).pc.toNat % 2 = 0 ∧ (startAt 0x00E0).pc.toNat + 1 ≤ 0xFFF ∧
      decodeBytes [(startAt 0x00E0).byte (startAt 0x00E0).pc.toNat, (startAt 0x00E0).byte ((startAt 0x00E0).pc.toNat + 1)] =
        .ok (.cls, []) := by
  refine ⟨by decide, by decide, by rfl⟩

theorem test_witness_IllegalWordStepsToUnknownOpcode : fetch State.reset = .ok 0x0000 ∧ illegalWord 0x0000 := by
  refine ⟨by rfl, ?_⟩
  unfold illegalWord; decide

/-- The statements on flags: a destination other than VF (their only hypothesis). -/
theorem test_witness_flagStatements : (14 : RegIdx) ≠ 15 := by decide

/-- Depth 16 for the overflow, depth 15 for the last CALL that completes. -/
theorem test_witness_CallPushesReturnAddress :
    ({ State.reset with sp := 16 } : State).sp.val = 16 ∧ ({ State.reset with sp := 15 } : State).sp.val < 16 := by decide

/-- Depth 0 for the underflow, depth 1 for the last RET that completes. -/
theorem test_witness_RetPopsReturnAddress :
    State.reset.sp.val = 0 ∧ 0 < ({ State.reset with sp := 1 } : State).sp.val ∧
      (0 : Fin 16).val + 1 = ({ State.reset with sp := 1 } : State).sp.val := by decide

theorem test_witness_RetUndoesCall : ({ State.reset with sp := 15 } : State).sp.val < 16 := by decide

/-- V[X] = 0x10 for the error, V[X] = 0xF for the last glyph. -/
theorem test_witness_FontPointerOrInvalidOperand :
    0xF < ((State.reset.setV 3 0x10).getV 3).toNat ∧ ((State.reset.setV 3 0xF).getV 3).toNat ≤ 0xF := by decide

/-- FX55 with X = F at I = 0xFF1 (out of range), 0x1FF (reserved), and 0x200 and 0xFF0 (the first and last that complete). -/
theorem test_witness_StoreRegisters :
    ((15 : Nat) ≤ (15 : RegIdx).val ∧ 0xFFF < (State.reset.setI 0xFF1).i.toNat + 15 ∧
      (∀ j < 15, (State.reset.setI 0xFF1).i.toNat + j ≤ 0xFFF)) ∧
    (State.reset.setI 0x1FF).i.toNat ≤ 0x1FF ∧
    (0x1FF < (State.reset.setI 0x200).i.toNat ∧ (State.reset.setI 0x200).i.toNat + (15 : RegIdx).val ≤ 0xFFF ∧
      Memory.wf (State.reset.setI 0x200).cfg.fontBase.val (State.reset.setI 0x200).mem = true) ∧
    (0x1FF < (State.reset.setI 0xFF0).i.toNat ∧ (State.reset.setI 0xFF0).i.toNat + (15 : RegIdx).val ≤ 0xFFF ∧
      Memory.wf (State.reset.setI 0xFF0).cfg.fontBase.val (State.reset.setI 0xFF0).mem = true) := by decide

/-- FX65 with X = F at I = 0xFF1 (out of range) and 0xFF0 (the last that completes). -/
theorem test_witness_LoadRegisters :
    ((15 : Nat) ≤ (15 : RegIdx).val ∧ 0xFFF < (State.reset.setI 0xFF1).i.toNat + 15 ∧
      (∀ j < 15, (State.reset.setI 0xFF1).i.toNat + j ≤ 0xFFF)) ∧
    (State.reset.setI 0xFF0).i.toNat + (15 : RegIdx).val ≤ 0xFFF := by decide

/-- FX33 at I = 0xFFE (out of range), 0x1FF (reserved) and 0xFFD (the last that completes). -/
theorem test_witness_DecimalDigitsStored :
    ((2 : Nat) ≤ 2 ∧ 0xFFF < (State.reset.setI 0xFFE).i.toNat + 2 ∧
      (∀ j < 2, (State.reset.setI 0xFFE).i.toNat + j ≤ 0xFFF)) ∧
    (State.reset.setI 0x1FF).i.toNat ≤ 0x1FF ∧
    (0x1FF < (State.reset.setI 0xFFD).i.toNat ∧ (State.reset.setI 0xFFD).i.toNat + 2 ≤ 0xFFF ∧
      Memory.wf (State.reset.setI 0xFFD).cfg.fontBase.val (State.reset.setI 0xFFD).mem = true) := by decide

theorem test_witness_LoadRestoresStored : ∃ t, exec (.ldMemX 1) (State.reset.setI 0x300) = .next t ∧
    Memory.wf (State.reset.setI 0x300).cfg.fontBase.val (State.reset.setI 0x300).mem = true ∧
    (t.setV 0 9).mem = t.mem ∧ (t.setV 0 9).cfg = t.cfg ∧ (t.setV 0 9).i = (State.reset.setI 0x300).i :=
  ⟨_, rfl, rfl, rfl, rfl, rfl⟩

theorem test_witness_StoredWordIsFetched : ∃ t, exec (.ldMemX 15) (State.reset.setI 0xFF0) = .next t ∧
    Memory.wf (State.reset.setI 0xFF0).cfg.fontBase.val (State.reset.setI 0xFF0).mem = true ∧
    (15 : RegIdx).val = (14 : RegIdx).val + 1 ∧ (15 : RegIdx) ≤ 15 ∧
    ((State.reset.setI 0xFF0).i.toNat + (14 : RegIdx).val) % 2 = 0 :=
  ⟨_, rfl, rfl, rfl, by decide, by decide⟩

/-- V[X] = 0x10 for the error, V[X] = 0xF for the last key. -/
theorem test_witness_KeySkips :
    0xF < ((State.reset.setV 5 0x10).getV 5).toNat ∧ ((State.reset.setV 5 0xF).getV 5).toNat = (15 : Fin 16).val := by decide

/-- Key F alone is pressed; no key is pressed and the word at PC is FX0A. -/
theorem test_witness_KeyWaitTakesLowestOrWaits :
    ((State.reset.setKey 15 true).key 15 = true ∧ ∀ j : Fin 16, j < 15 → (State.reset.setKey 15 true).key j = false) ∧
    (∀ k : Fin 16, (startAt 0xF50A).key k = false) ∧ fetch (startAt 0xF50A) = .ok (encode (.ldXK 5)) := by
  refine ⟨by decide, by decide, by rfl⟩

/-- A step that waits; one that succeeds and is no FX0A; an FX0A that succeeds with a key pressed; one that fails. -/
theorem test_witness_WaitingOnlyFromKeyWait : hostOp .step (startAt 0xF50A) = .next (startAt 0xF50A, .waiting) ∧
    (∃ t, step (startAt 0x6A42) = .next t ∧ fetch (startAt 0x6A42) = .ok (encode (.ldImm 10 0x42))) ∧
    (∃ t, step ((startAt 0xF50A).setKey 15 true) = .next t ∧ ((startAt 0xF50A).setKey 15 true).key 15 = true) ∧
    step (startAt 0x0123) = .fault (.unknownOpcode 0x0123) :=
  ⟨rfl, ⟨_, rfl, rfl⟩, ⟨_, rfl, rfl⟩, rfl⟩

/-- DXYN with n = 15 at I = 0xFF2 (out of range at its last row) and 0xFF1 (the last that completes), n = 0 anywhere; a
pixel that the sprite covers, clear and set, and one that it does not cover. -/
theorem test_witness_DrawTogglesCoveredPixels :
    ((14 : Nat) < (15 : Nibble).toNat ∧ 0xFFF < (State.reset.setI 0xFF2).i.toNat + 14 ∧
      (∀ j < 14, (State.reset.setI 0xFF2).i.toNat + j ≤ 0xFFF)) ∧
    (∀ r < (15 : Nibble).toNat, (State.reset.setI 0xFF1).i.toNat + r ≤ 0xFFF) ∧
    (∀ r < (0 : Nibble).toNat, (State.reset.setI 0xFFFF).i.toNat + r ≤ 0xFFF) := by decide

theorem test_witness_spriteCovers : spriteCovers (State.reset.setI 0x050) 0 1 5 0 0 :=
  ⟨0, 0, by decide, by decide, by decide, by decide, .inl ⟨by decide, by decide⟩⟩

theorem test_witness_spriteHits : spriteCovers ((State.reset.setI 0x050).setDisp
      (Display.setPixel Display.blank 0 0 true)) 0 1 5 0 0 ∧
    ((State.reset.setI 0x050).setDisp (Display.setPixel Display.blank 0 0 true)).pixel 0 0 = true :=
  ⟨⟨0, 0, by decide, by decide, by decide, by decide, .inl ⟨by decide, by decide⟩⟩, by decide +kernel⟩

theorem test_witness_spriteMisses : ¬spriteCovers (State.reset.setI 0x050) 0 1 0 0 0 := by
  rintro ⟨r, c, hr, -⟩
  exact absurd hr (Nat.not_lt_zero _)

theorem test_witness_DrawTwiceRestores : (0 : RegIdx) ≠ 15 ∧ (1 : RegIdx) ≠ 15 ∧
    (∃ t, exec (.drw 0 1 5) (State.reset.setI 0x050) = .next t) ∧
    (∀ cx cy, spriteCovers (State.reset.setI 0x050) 0 1 5 cx cy → (State.reset.setI 0x050).pixel cx cy = false) :=
  ⟨by decide, by decide, ⟨_, rfl⟩, fun _ _ _ => Display.pixel_blank _ _⟩

/-- The last clause of DrawTwiceRestores: a sprite of no rows covers nothing. -/
theorem test_witness_DrawTwiceRestores_empty : (∃ t, exec (.drw 0 1 0) State.reset = .next t) ∧
    ∀ cx cy, ¬spriteCovers State.reset 0 1 0 cx cy :=
  ⟨⟨_, rfl⟩, fun _ _ ⟨_, _, hr, _⟩ => absurd hr (Nat.not_lt_zero _)⟩

/-- Both ends of the font, the bytes on both sides of it, at the default address. -/
theorem test_witness_ConstructionValues :
    (0x04F < (State.construct {}).cfg.fontBase.val) ∧ ((State.construct {}).cfg.fontBase.val + 80 ≤ 0x0A0) := by decide

/-- The largest ROM, and the byte before 0x200. -/
theorem test_witness_LoadRomPlacesBytes : (List.replicate 0xE00 (1 : Byte)).length ≤ 0xE00 ∧
    0xDFF < (List.replicate 0xE00 (1 : Byte)).length ∧
    (State.reset.cfg.fontBase.val + 80 ≤ 0x1FF ∧ 0x1FF < 0x200) := by
  rw [List.length_replicate]; decide

/-- The empty image, which is accepted. -/
theorem test_witness_LoadRomPlacesBytes_empty : ([] : List Byte).length ≤ 0xE00 ∧
    (∃ t, loadRom [] none State.reset = .ok t ∧ faultOf (step t) = some (.unknownOpcode 0x0000)) :=
  ⟨by decide, _, rfl, by decide⟩

theorem test_witness_RomTooLargeChangesNothing : 0xE00 < (List.replicate 0xE01 (1 : Byte)).length := by
  rw [List.length_replicate]; decide

theorem test_witness_FirstFetchAfterLoad : (List.replicate 0xDFE (1 : Byte)).length + 2 ≤ 0xE00 := by
  rw [List.length_replicate]

theorem test_witness_KeySetAndObservers : (15 : Fin 16).val < 16 ∧ 16 ≤ 16 := by decide

/-- A state with a word to run meets the invariant. -/
theorem startAt_inv : Inv (startAt 0x6A42) :=
  ⟨by decide, by decide, by decide, fun _ hk => absurd hk (Nat.not_lt_zero _)⟩

theorem test_witness_StepKeepsInv : Inv (startAt 0x6A42) ∧ ∃ t, step (startAt 0x6A42) = .next t :=
  ⟨startAt_inv, _, rfl⟩

theorem test_witness_HostRunKeepsInv : Inv (startAt 0x6A42) ∧
    ∃ t, runOps [.tickTimers, .step, .setKey 15 true, .loadRom [0x12, 0x00] none] (startAt 0x6A42) = .next t :=
  ⟨startAt_inv, _, rfl⟩

theorem test_witness_ReservedAreaNeverChanges : ∃ t, Reaches (startAt 0x6A42) t ∧ 0x1FF ≤ 0x1FF :=
  ⟨_, .step (.refl _) rfl, Nat.le_refl _⟩

theorem test_witness_OnlyStoresChangeMemory : ∃ t, exec .cls State.reset = .next t ∧ (∀ x, Instr.cls ≠ .ldB x) ∧
    ∀ x, Instr.cls ≠ .ldMemX x :=
  ⟨_, rfl, nofun, nofun⟩

theorem test_witness_RegistersAndFlagsWritten : (∃ t, exec (.ldImm 0 1) State.reset = .next t) ∧
    namesDest (.ldImm 0 1) 15 = false ∧ writesFlag (.ldImm 0 1) = false ∧
    (∃ t, exec (.addReg 15 15) State.reset = .next t) ∧ writesFlag (.addReg 15 15) = true ∧
    namesDest (.addReg 15 15) 14 = false ∧ (14 : RegIdx) ≠ 15 :=
  ⟨⟨_, rfl⟩, by decide, by decide, ⟨_, rfl⟩, by decide, by decide, by decide⟩

theorem test_witness_IndexWriters : ∃ t, exec (.ldXMem 15) State.reset = .next t ∧
    (∀ n, Instr.ldXMem 15 ≠ .ldI n) ∧ (∀ x, Instr.ldXMem 15 ≠ .addI x) ∧ (∀ x, Instr.ldXMem 15 ≠ .ldF x) ∧
    State.reset.cfg.quirks.loadStoreIncI ≠ true :=
  ⟨_, rfl, nofun, nofun, nofun, by decide⟩

theorem test_witness_StackTimersDisplayWriters : ∃ t, exec (.jp 0xFFF) State.reset = .next t ∧
    (∀ n, Instr.jp 0xFFF ≠ .call n) ∧ Instr.jp 0xFFF ≠ .ret ∧ (∀ x, Instr.jp 0xFFF ≠ .ldDtX x) ∧
    (∀ x, Instr.jp 0xFFF ≠ .ldStX x) ∧ Instr.jp 0xFFF ≠ .cls ∧ (∀ x y n, Instr.jp 0xFFF ≠ .drw x y n) ∧
    ∀ x nn, Instr.jp 0xFFF ≠ .rnd x nn :=
  ⟨_, rfl, nofun, nofun, nofun, nofun, nofun, nofun, nofun⟩

theorem test_witness_StepKeepsKeysAndConfig : ∃ t, step (startAt 0x1200) = .next t := ⟨_, rfl⟩

theorem test_witness_KeysReadOnlyByKeyInstructions : readsKeys (.jp 0xFFF) = false := by decide

/-- Two states that differ in entry 15, which is dead at depth 15, and a step that completes. -/
theorem test_witness_DeadStackUnobservable :
    sameButDeadStack { startAt 0x2300 with sp := 15 }
      { startAt 0x2300 with sp := 15, stack := (startAt 0x2300).stack.set 15 0xABC } ∧
    (∃ t, step { startAt 0x2300 with sp := 15 } = .next t) ∧
    (∃ e, step { startAt 0x00EE with sp := 0 } = .fault e) := by
  refine ⟨⟨rfl, by decide⟩, ⟨_, rfl⟩, _, rfl⟩

theorem test_witness_CanonicalMemoryUnique : Memory.wf 0x050 [(0x1FF, 1), (0xFFF, 2)] = true ∧
    ∀ a : Nat, Memory.read 0x050 [(0x1FF, 1), (0xFFF, 2)] a = Memory.read 0x050 [(0x1FF, 1), (0xFFF, 2)] a :=
  ⟨by decide, fun _ => rfl⟩

end Sys2Proof.Tests
end

/-! PROOFS of the family 10_state.md: what an instruction that completes can do to the state, said once (`Effect`), and the
frames and the invariant read off it; and the independence of an execution from `key[]` and from dead stack entries. -/

namespace Sys2Proof.Machine

/-! ### What a completing instruction does -/

/-- Where PC can go when nothing else changes: it stays (a waiting FX0A), goes to the next instruction, skips one, or jumps
to at most 0xFFF + 0xFF (BNNN, R134). -/
def NextPc (s : State) (w : Word) : Prop := w = s.pc ∨ w = s.pc + 2 ∨ w = s.pc + 4 ∨ w.toNat ≤ 0x10FE

/-- `Effect s i t`: the shapes of the next state `t` of an instruction `i` that completes in `s`, by what it writes. -/
inductive Effect (s : State) : Instr → State → Prop where
  | pcOnly {i : Instr} (w : Word) (hf : writesFlag i = false) (hw : NextPc s w) : Effect s i (s.setPc w)
  | ret (sp : Fin 17) (pc : Word) (hlt : sp.val < s.sp.val)
      (hpc : ∃ k : Fin 16, k.val < s.sp.val ∧ pc = s.stack.get k) : Effect s .ret { s with sp := sp, pc := pc }
  | call {nnn : Addr12} (sp : Fin 17) (stack : Vector Word 16) (hsp : sp.val = s.sp.val + 1)
      (hst : ∀ k : Fin 16, stack.get k = if k.val = s.sp.val then s.pc + 2 else s.stack.get k) :
      Effect s (.call nnn) { s with stack := stack, sp := sp, pc := zext12 nnn }
  | reg {i : Instr} (x : RegIdx) (b : Byte) (hd : namesDest i x = true) (hf : writesFlag i = false) :
      Effect s i (s.setV x b).advance
  | result {i : Instr} (x : RegIdx) (b : Byte) (c : Bool) (hd : namesDest i x = true) (hf : writesFlag i = true) :
      Effect s i (s.setResult x b c).advance
  | index {i : Instr} (w : Word) (hf : writesFlag i = false)
      (hi : (∃ nnn, i = .ldI nnn) ∨ (∃ x, i = .addI x) ∨ ∃ x, i = .ldF x) : Effect s i (s.setI w).advance
  | cls : Effect s .cls (s.setDisp Display.blank).advance
  | drw {x y : RegIdx} {n : Nibble} (d : Display) (c : Bool) :
      Effect s (.drw x y n) ((s.setDisp d).setV regF (flagByte c)).advance
  | rnd {x : RegIdx} {nn : Byte} (b : Byte) : Effect s (.rnd x nn) (s.draw.2.setV x b).advance
  | ldDtX {x : RegIdx} (b : Byte) : Effect s (.ldDtX x) (s.setDt b).advance
  | ldStX {x : RegIdx} (b : Byte) : Effect s (.ldStX x) (s.setSt b).advance
  | ldB {x : RegIdx} (bs : List Byte) (ha : 0x1FF < s.i.toNat) : Effect s (.ldB x) (s.setBytes s.i.toNat bs).advance
  | ldMemX {x : RegIdx} (bs : List Byte) (ha : 0x1FF < s.i.toNat) :
      Effect s (.ldMemX x) (afterAccess (s.setBytes s.i.toNat bs) x).advance
  | ldXMem {x : RegIdx} (bs : List Byte) (hl : bs.length = x.val + 1) :
      Effect s (.ldXMem x) (afterAccess (loadRegs s 0 bs) x).advance

theorem NextPc.skip (s : State) (c : Bool) : NextPc s (if c then s.pc + 4 else s.pc + 2) := by
  cases c
  · exact .inr (.inl rfl)
  · exact .inr (.inr (.inl rfl))

theorem zext12_le (nnn : Addr12) : (zext12 nnn).toNat ≤ 0xFFF := by
  unfold zext12
  rw [BitVec.toNat_setWidth]
  omega

/-- The target of BNNN, no wrap to 12 bits included (R134). -/
theorem jumpTarget_le (nnn : Addr12) (b : Byte) : (zext12 nnn + zext8 b).toNat ≤ 0x10FE := by
  have h : (zext8 b).toNat ≤ 0xFF := by
    unfold zext8
    rw [BitVec.toNat_setWidth]
    omega
  have := zext12_le nnn
  rw [BitVec.toNat_add]
  omega

/-- The inversion lemma of `exec`: an instruction that completes has one of the effects. -/
theorem exec_effect {i : Instr} {s t : State} (h : exec i s = .next t) : Effect s i t := by
  cases i with
  | sys => cases h  -- SYS only raises (R139)
  | jp nnn => cases h; exact .pcOnly _ rfl (.inr (.inr (.inr (by have := zext12_le nnn; omega))))
  | jpV0 nnn => cases h; exact .pcOnly _ rfl (.inr (.inr (.inr (jumpTarget_le nnn _))))
  | seImm | sneImm | seReg | sneReg => cases h; exact .pcOnly _ rfl (.skip s _)
  | skp => obtain ⟨k, -, rfl⟩ := execSkp_next h; exact .pcOnly _ rfl (.skip s _)
  | sknp => obtain ⟨k, -, rfl⟩ := execSknp_next h; exact .pcOnly _ rfl (.skip s _)
  | ldXK x =>
    obtain ⟨-, rfl⟩ | ⟨k, -, rfl⟩ := execLdXK_next h
    · exact .pcOnly t.pc rfl (.inl rfl)
    · exact .reg x _ (beq_self_eq_true x) rfl
  | ret =>
    obtain ⟨hpos, hsp, hpc, ht⟩ := execRet_next h
    have := s.sp.isLt
    rw [ht]
    exact .ret _ _ (by omega) ⟨⟨s.sp.val - 1, by omega⟩, by dsimp only; omega, hpc _ (by dsimp only; omega)⟩
  | call =>
    obtain ⟨-, hsp, hst, ht⟩ := execCall_next h
    rw [ht]
    exact .call _ _ hsp hst
  | ldImm x | addImm x | ldReg x | or x | and x | xor x | ldXDt x => cases h; exact .reg x _ (beq_self_eq_true x) rfl
  | addReg x | sub x | shr x | subn x | shl x => cases h; exact .result x _ _ (beq_self_eq_true x) rfl
  | ldI nnn => cases h; exact .index _ rfl (.inl ⟨nnn, rfl⟩)
  | addI x => cases h; exact .index _ rfl (.inr (.inl ⟨x, rfl⟩))
  | ldF x => obtain ⟨d, -, rfl⟩ := execLdF_next h; exact .index _ rfl (.inr (.inr ⟨x, rfl⟩))
  | cls => cases h; exact .cls
  | drw => obtain ⟨-, rfl⟩ := execDrw_next h; exact .drw _ _
  | rnd => cases h; exact .rnd _
  | ldDtX => cases h; exact .ldDtX _
  | ldStX => cases h; exact .ldStX _
  | ldB => obtain ⟨ha, -, rfl⟩ := execLdB_next h; exact .ldB _ ha
  | ldMemX => obtain ⟨ha, -, rfl⟩ := execLdMemX_next h; exact .ldMemX _ ha
  | ldXMem => obtain ⟨-, rfl⟩ := execLdXMem_next h; exact .ldXMem _ (State.bytes_length s _ _)

/-! ### What each effect leaves unchanged -/

section Frames

variable {i : Instr} {s t : State}

theorem Effect.keeps_fixed (h : Effect s i t) : fixedSame s t := by
  cases h <;> simp [fixedSame]

theorem Effect.keeps_draws (h : Effect s i t) (hr : ∀ x nn, i ≠ .rnd x nn) : drawsSame s t := by
  cases h with
  | rnd => exact absurd rfl (hr _ _)
  | _ => simp [drawsSame]

theorem Effect.keeps_stack (h : Effect s i t) (hc : ∀ n, i ≠ .call n) (hr : i ≠ .ret) : stackSame s t := by
  cases h with
  | ret => exact absurd rfl hr
  | call => exact absurd rfl (hc _)
  | _ => simp [stackSame]

theorem Effect.keeps_timers (h : Effect s i t) (hd : ∀ x, i ≠ .ldDtX x) (hs : ∀ x, i ≠ .ldStX x) :
    timersSame s t := by
  cases h with
  | ldDtX => exact absurd rfl (hd _)
  | ldStX => exact absurd rfl (hs _)
  | _ => simp [timersSame]

theorem Effect.keeps_disp (h : Effect s i t) (hc : i ≠ .cls) (hd : ∀ x y n, i ≠ .drw x y n) : dispSame s t := by
  suffices hdisp : t.disp = s.disp from fun x y => congrArg (Display.pixel · x y) hdisp
  cases h with
  | cls => exact absurd rfl hc
  | drw => exact absurd rfl (hd _ _ _)
  | _ => simp

theorem Effect.i_eq (h : Effect s i t) (hn : ∀ n, i ≠ .ldI n) (ha : ∀ x, i ≠ .addI x) (hf : ∀ x, i ≠ .ldF x)
    (hq : s.cfg.quirks.loadStoreIncI = true → (∀ x, i ≠ .ldMemX x) ∧ ∀ x, i ≠ .ldXMem x) : t.i = s.i := by
  cases h with
  | index w _ hi =>
    obtain ⟨n, rfl⟩ | ⟨x, rfl⟩ | ⟨x, rfl⟩ := hi
    · exact absurd rfl (hn n)
    · exact absurd rfl (ha x)
    · exact absurd rfl (hf x)
  | ldMemX =>
    have : s.cfg.quirks.loadStoreIncI ≠ true := fun hc => (hq hc).1 _ rfl
    simp [afterAccess_i, this]
  | ldXMem =>
    have : s.cfg.quirks.loadStoreIncI ≠ true := fun hc => (hq hc).2 _ rfl
    simp [afterAccess_i, this]
  | _ => simp

theorem ne_of_namesDest {i : Instr} {r x : RegIdx} (hr : namesDest i r = false) (hx : namesDest i x = true) : r ≠ x := by
  rintro rfl
  exact Bool.false_ne_true (hr.symm.trans hx)

theorem Effect.getV_eq (h : Effect s i t) {r : RegIdx} (hr : namesDest i r = false)
    (hf : r = 15 → writesFlag i = false) : t.getV r = s.getV r := by
  cases h with
  | ret | call => rfl
  | reg x b hd => simp [ne_of_namesDest hr hd]
  | result x b c hd hf' =>
    have hrf : r ≠ regF := fun h15 => Bool.false_ne_true ((hf h15).symm.trans hf')
    simp [State.setResult_getV, hrf, ne_of_namesDest hr hd]
  | drw =>
    have hrf : r ≠ regF := fun h15 => Bool.noConfusion (hf h15)
    simp [hrf]
  | @rnd x nn b =>
    have hne : r ≠ x := ne_of_namesDest hr (beq_self_eq_true x)
    rw [State.advance_getV, State.setV_getV_of_ne _ _ hne]
    rfl
  | @ldXMem x bs hl =>
    have hlt : x.val < r.val := not_le.mp (of_decide_eq_false hr)
    rw [State.advance_getV, afterAccess_getV, loadRegs_getV bs s 0 r (by omega), dif_neg (by omega)]
  | _ => simp

/-- A flag is 0 or 1 (R22). -/
theorem flagByte_eq (c : Bool) : flagByte c = 0 ∨ flagByte c = 1 := by
  cases c
  · exact .inl rfl
  · exact .inr rfl

theorem Effect.flag (h : Effect s i t) (hf : writesFlag i = true) : t.getV 15 = 0 ∨ t.getV 15 = 1 := by
  cases h with
  | pcOnly _ hf' | reg _ _ _ hf' | index _ hf' => exact absurd (hf.symm.trans hf') Bool.noConfusion
  | result x b c =>
    have : (s.setResult x b c).getV 15 = flagByte c := State.setV_getV_self _ regF _
    rw [State.advance_getV, this]
    exact flagByte_eq c
  | drw d c =>
    have : ((s.setDisp d).setV regF (flagByte c)).getV 15 = flagByte c := State.setV_getV_self _ regF _
    rw [State.advance_getV, this]
    exact flagByte_eq c
  | _ => exact absurd hf Bool.noConfusion

end Frames

/-! ### The invariant -/

section Invariant

variable {i : Instr} {s t : State}

theorem Effect.memWf (h : Effect s i t) (hm : Memory.wf s.cfg.fontBase.val s.mem = true) :
    Memory.wf t.cfg.fontBase.val t.mem = true := by
  cases h with
  | ldB bs => exact State.setBytes_wf bs _ hm
  | ldMemX bs => simpa using State.setBytes_wf bs s.i.toNat hm
  | _ => simpa using hm

/-- No instruction lists an address of the reserved area: the stores begin above it (R54). -/
theorem Effect.reservedClean (h : Effect s i t) (hm : ∀ c ∈ s.mem, 0x1FF < c.1) : ∀ c ∈ t.mem, 0x1FF < c.1 := by
  have hstore : ∀ bs, 0x1FF < s.i.toNat → ∀ c ∈ (s.setBytes s.i.toNat bs).mem, 0x1FF < c.1 := fun bs ha c hc =>
    (State.mem_setBytes hc).elim (hm c) (by omega)
  cases h with
  | ldB bs ha => exact hstore bs ha
  | ldMemX bs ha => simpa using hstore bs ha
  | _ => simpa using hm

theorem NextPc.le {w : Word} (h : NextPc s w) (hpc : s.pc.toNat + 1 ≤ 0xFFF) : w.toNat ≤ 0x10FE := by
  obtain rfl | rfl | rfl | h := h
  · omega
  · bv_omega
  · bv_omega
  · exact h

/-- From a fetched instruction no PC above 0x10FE is reached (R24): RET comes back to a live return address. -/
theorem Effect.pcBound (h : Effect s i t) (hpc : s.pc.toNat + 1 ≤ 0xFFF) (hi : Inv s) : t.pc.toNat ≤ 0x10FE := by
  have hadv : (s.pc + 2).toNat ≤ 0x10FE := NextPc.le (.inr (.inl rfl)) hpc
  cases h with
  | pcOnly w _ hw => exact hw.le hpc
  | ret sp pc _ hk =>
    obtain ⟨k, hk, rfl⟩ := hk
    exact (hi.stackLive k hk).2.trans (by omega)
  | call => exact (zext12_le _).trans (by omega)
  | _ => simpa using hadv

/-- Every live stack entry stays a return address: 2NNN pushes PC + 2 of a fetched instruction (R132, R55). -/
theorem Effect.stackLive (h : Effect s i t) (heven : s.pc.toNat % 2 = 0) (hpc : s.pc.toNat + 1 ≤ 0xFFF) (hi : Inv s) :
    ∀ k : Fin 16, k.val < t.sp.val → (t.stack.get k).toNat % 2 = 0 ∧ (t.stack.get k).toNat ≤ 0x1000 := by
  cases h with
  | ret sp _ hlt => exact fun k hk => hi.stackLive k (hk.trans hlt)
  | call sp stack hsp hst =>
    intro k hk
    dsimp only at hk ⊢
    rw [hst k]
    split
    · bv_omega
    · exact hi.stackLive k (by omega)
  | _ => simpa using hi.stackLive

end Invariant

/-- Settles O46: an instruction that completes was fetched at an even PC up to 0xFFE, and each of its effects keeps each
part of the invariant. -/
theorem stepKeepsInv : Obligations.StepKeepsInv := by
  unfold Obligations.StepKeepsInv
  intro s t hi h
  obtain ⟨w, i, hw, -, hx⟩ := step_next h
  obtain ⟨heven, hpc, -⟩ := fetch_ok hw
  have e := exec_effect hx
  exact ⟨e.memWf hi.memWf, e.reservedClean hi.reservedClean, e.pcBound hpc hi, e.stackLive heven hpc hi⟩

/-- Settles O50, by the effect of the instruction. -/
theorem registersAndFlagsWritten : Obligations.RegistersAndFlagsWritten := by
  unfold Obligations.RegistersAndFlagsWritten
  intro i s t h
  exact ⟨fun _ => (exec_effect h).getV_eq, (exec_effect h).flag⟩

/-- Settles O51, by the effect of the instruction. -/
theorem indexWriters : Obligations.IndexWriters := by
  unfold Obligations.IndexWriters
  intro i s t h
  exact (exec_effect h).i_eq

/-- Settles O52, by the effect of the instruction. -/
theorem stackTimersDisplayWriters : Obligations.StackTimersDisplayWriters := by
  unfold Obligations.StackTimersDisplayWriters
  intro i s t h
  have e := exec_effect h
  exact ⟨e.keeps_stack, e.keeps_timers, e.keeps_disp, e.keeps_draws⟩

/-- Settles O53: a step that completes executes an instruction, and no effect writes `key[]` or the configuration. -/
theorem stepKeepsKeysAndConfig : Obligations.StepKeepsKeysAndConfig := by
  unfold Obligations.StepKeepsKeysAndConfig
  intro s t h
  obtain ⟨w, i, -, -, hx⟩ := step_next h
  exact (exec_effect hx).keeps_fixed

/-! ### Independence of `key[]` and of the stack -/

/-- The state with `key[]` and the stack entries replaced; SP stays. -/
def State.mapKeysStack (fk : Vector Bool 16 → Vector Bool 16) (fs : Vector Word 16 → Vector Word 16) (s : State) :
    State :=
  { s with keys := fk s.keys, stack := fs s.stack }

/-- The instructions that use a stack entry (10_state.md R27). -/
def usesStack : Instr → Bool
  | .call _ | .ret => true
  | _ => false

section Map

variable (fk : Vector Bool 16 → Vector Bool 16) (fs : Vector Word 16 → Vector Word 16)

@[simp] theorem State.mapKeysStack_pc (s : State) : (s.mapKeysStack fk fs).pc = s.pc := rfl
@[simp] theorem State.mapKeysStack_cfg (s : State) : (s.mapKeysStack fk fs).cfg = s.cfg := rfl
@[simp] theorem State.mapKeysStack_digitOperand (s : State) (x : RegIdx) :
    digitOperand (s.mapKeysStack fk fs) x = digitOperand s x := rfl

theorem State.bytes_mapKeysStack (s : State) : ∀ n a : Nat, (s.mapKeysStack fk fs).bytes a n = s.bytes a n
  | 0, _ => rfl
  | n + 1, a => congrArg (s.byte a :: ·) (State.bytes_mapKeysStack s n (a + 1))

theorem State.setBytes_mapKeysStack : ∀ (bs : List Byte) (s : State) (a : Nat),
    (s.mapKeysStack fk fs).setBytes a bs = (s.setBytes a bs).mapKeysStack fk fs
  | [], _, _ => rfl
  | b :: rest, s, a => State.setBytes_mapKeysStack rest (s.setByte a b) (a + 1)

theorem loadRegs_mapKeysStack : ∀ (bs : List Byte) (s : State) (k : Nat),
    loadRegs (s.mapKeysStack fk fs) k bs = (loadRegs s k bs).mapKeysStack fk fs
  | [], _, _ => rfl
  | b :: rest, s, k => by
    unfold loadRegs
    split
    · exact loadRegs_mapKeysStack rest (s.setV ⟨k, _⟩ b) (k + 1)
    · rfl

theorem regsFrom_mapKeysStack (s : State) : ∀ n k : Nat, regsFrom (s.mapKeysStack fk fs) k n = regsFrom s k n
  | 0, _ => rfl
  | n + 1, k => by
    unfold regsFrom
    rw [regsFrom_mapKeysStack s n (k + 1)]
    rfl

theorem afterAccess_mapKeysStack (s : State) (x : RegIdx) :
    afterAccess (s.mapKeysStack fk fs) x = (afterAccess s x).mapKeysStack fk fs := by
  unfold afterAccess
  rw [State.mapKeysStack_cfg]
  split <;> rfl

/-- A multi-byte read commutes with the replacement when what is done with the bytes does. -/
theorem withReads_mapKeysStack (s : State) (a n : Nat) {f g : List Byte → State}
    (h : ∀ bs, g bs = (f bs).mapKeysStack fk fs) :
    withReads (s.mapKeysStack fk fs) a n g = mapNext (State.mapKeysStack fk fs) (withReads s a n f) := by
  unfold withReads
  rw [State.bytes_mapKeysStack, h]
  cases checkReads a n <;> rfl

/-- A multi-byte write commutes with the replacement when what is done after it does. -/
theorem withWrites_mapKeysStack (s : State) (a : Nat) (bs : List Byte) {f : State → State}
    (h : ∀ u : State, f (u.mapKeysStack fk fs) = (f u).mapKeysStack fk fs) :
    withWrites (s.mapKeysStack fk fs) a bs f = mapNext (State.mapKeysStack fk fs) (withWrites s a bs f) := by
  unfold withWrites
  rw [State.setBytes_mapKeysStack, h]
  cases checkWrites a bs.length <;> rfl

/-- A pop moves SP alone. -/
theorem State.pop_mapKeysStack (s : State) :
    (s.mapKeysStack fk id).pop = s.pop.map fun p => (p.1, p.2.mapKeysStack fk id) := by
  unfold State.pop
  by_cases h : s.sp.val = 0 <;> simp [State.mapKeysStack, h]

/-- A push writes no key. -/
theorem State.push_mapKeysStack (s : State) (a : Word) :
    (s.mapKeysStack fk id).push a = (s.push a).map (State.mapKeysStack fk id) := by
  unfold State.push
  by_cases h : s.sp.val < 16 <;> simp [State.mapKeysStack, h]

/-- An instruction commutes with replacing `key[]` unless it reads it, and the stack entries unless it uses them. -/
theorem exec_mapKeysStack (i : Instr) (s : State) (hk : readsKeys i = true → fk = id)
    (hs : usesStack i = true → fs = id) :
    exec i (s.mapKeysStack fk fs) = mapNext (State.mapKeysStack fk fs) (exec i s) := by
  cases i with
  | ret =>
    obtain rfl := hs rfl
    simp only [exec, execRet, State.pop_mapKeysStack]
    cases s.pop <;> rfl
  | call nnn =>
    obtain rfl := hs rfl
    simp only [exec, execCall, State.push_mapKeysStack, State.mapKeysStack_pc]
    cases s.push (s.pc + 2) <;> rfl
  | skp x =>
    obtain rfl := hk rfl
    simp only [exec, execSkp, State.mapKeysStack_digitOperand]
    cases digitOperand s x <;> rfl
  | sknp x =>
    obtain rfl := hk rfl
    simp only [exec, execSknp, State.mapKeysStack_digitOperand]
    cases digitOperand s x <;> rfl
  | ldXK x =>
    obtain rfl := hk rfl
    have hl : lowestKey (s.mapKeysStack id fs) = lowestKey s := rfl
    simp only [exec, execLdXK, hl]
    cases lowestKey s <;> rfl
  | ldF x =>
    simp only [exec, execLdF, State.mapKeysStack_digitOperand]
    cases digitOperand s x <;> rfl
  | drw x y n =>
    simp only [exec, execDrw]
    exact withReads_mapKeysStack fk fs s _ _ fun _ => rfl
  | ldB x => exact withWrites_mapKeysStack fk fs s _ _ fun _ => rfl
  | ldMemX x =>
    simp only [exec, execLdMemX, regsUpTo, regsFrom_mapKeysStack]
    refine withWrites_mapKeysStack fk fs s _ _ fun u => ?_
    rw [afterAccess_mapKeysStack]
    rfl
  | ldXMem x =>
    simp only [exec, execLdXMem]
    refine withReads_mapKeysStack fk fs s _ _ fun bs => ?_
    rw [loadRegs_mapKeysStack, afterAccess_mapKeysStack]
    rfl
  | _ => rfl

end Map

/-- Settles O54: replacing `key[]` alone commutes with every instruction that does not read it. -/
theorem keysReadOnlyByKeyInstructions : Obligations.KeysReadOnlyByKeyInstructions := by
  unfold Obligations.KeysReadOnlyByKeyInstructions
  intro i s keys hi
  exact exec_mapKeysStack (fun _ => keys) id i s (fun hr => Bool.noConfusion (hi.symm.trans hr)) fun _ => rfl

/-! ### Dead stack entries -/

/-- Two outcomes agree up to dead stack entries: a next state of the first is matched by one of the second, an error by the
same error. -/
def OutcomesAgree (o o' : Host.Outcome State Fault Refusal) : Prop :=
  (∀ s', o = .next s' → ∃ t', o' = .next t' ∧ sameButDeadStack s' t') ∧ ∀ e, o = .fault e → o' = .fault e

theorem OutcomesAgree.next {s t : State} (h : sameButDeadStack s t) : OutcomesAgree (.next s) (.next t) :=
  ⟨fun _ hs => ⟨t, rfl, by cases hs; exact h⟩, nofun⟩

theorem OutcomesAgree.raise (e : Fault) : OutcomesAgree (raise e) (raise e) := ⟨nofun, fun _ h => h⟩

/-- States alike but for dead entries: the second is the first with another stack that agrees on the live entries. -/
theorem sameButDeadStack_iff {s t : State} : sameButDeadStack s t ↔
    ∃ stack, t = { s with stack := stack } ∧ ∀ k : Fin 16, k.val < s.sp.val → stack.get k = s.stack.get k := by
  constructor
  · rintro ⟨h, hlive⟩
    exact ⟨t.stack, by rw [← h], hlive⟩
  · rintro ⟨stack, rfl, hlive⟩
    exact ⟨rfl, hlive⟩

/-- RET pops a live entry, which is the same in both states. -/
theorem execRet_agree {s t : State} (h : sameButDeadStack s t) : OutcomesAgree (execRet s) (execRet t) := by
  obtain ⟨stack, rfl, hlive⟩ := sameButDeadStack_iff.mp h
  unfold execRet State.pop
  by_cases h0 : s.sp.val = 0
  · simp only [h0, dite_true]
    exact .raise _
  · have htop := hlive ⟨s.sp.val - 1, by omega⟩ (by dsimp only; omega)
    simp only [h0, dite_false, htop]
    refine .next (sameButDeadStack_iff.mpr ⟨stack, rfl, fun k hk => hlive k ?_⟩)
    exact Nat.lt_of_lt_of_le hk (Nat.sub_le _ _)

/-- CALL overwrites the first dead entry with the same address in both states. -/
theorem execCall_agree (nnn : Addr12) {s t : State} (h : sameButDeadStack s t) :
    OutcomesAgree (execCall nnn s) (execCall nnn t) := by
  obtain ⟨stack, rfl, hlive⟩ := sameButDeadStack_iff.mp h
  unfold execCall State.push
  by_cases hlt : s.sp.val < 16
  · simp only [hlt, dite_true]
    refine .next (sameButDeadStack_iff.mpr ⟨stack.set s.sp.val (s.pc + 2) hlt, rfl, fun k hk => ?_⟩)
    have hk : k.val < s.sp.val + 1 := hk
    by_cases hkt : s.sp.val = k.val
    · simp [Vector.get_eq_getElem, hkt]
    · simpa [Vector.get_eq_getElem, Vector.getElem_set, hkt] using hlive k (by omega)
  · simp only [hlt, dite_false]
    exact .raise _

/-- An instruction that uses no stack entry hands the stack on as it is. -/
theorem exec_agree_of_not_usesStack {i : Instr} (hi : usesStack i = false) {s t : State} (h : sameButDeadStack s t) :
    OutcomesAgree (exec i s) (exec i t) := by
  obtain ⟨stack, rfl, hlive⟩ := sameButDeadStack_iff.mp h
  have hx : exec i { s with stack := stack } = mapNext (State.mapKeysStack id fun _ => stack) (exec i s) :=
    exec_mapKeysStack id (fun _ => stack) i s (fun _ => rfl) fun hs => Bool.noConfusion (hi.symm.trans hs)
  rw [hx]
  cases hs : exec i s with
  | fault e => exact .raise e
  | refused r => exact ⟨nofun, nofun⟩
  | next s' =>
    obtain ⟨hsp, hst⟩ := (exec_effect hs).keeps_stack (by rintro n rfl; cases hi) (by rintro rfl; cases hi)
    refine .next (sameButDeadStack_iff.mpr ⟨stack, rfl, fun k hk => ?_⟩)
    rw [hst k]
    exact hlive k (hsp ▸ hk)

theorem exec_agree (i : Instr) {s t : State} (h : sameButDeadStack s t) : OutcomesAgree (exec i s) (exec i t) := by
  cases i with
  | ret => exact execRet_agree h
  | call nnn => exact execCall_agree nnn h
  | _ => exact exec_agree_of_not_usesStack rfl h

/-- Fetch reads PC and memory alone. -/
theorem sameButDeadStack.fetch_eq {s t : State} (h : sameButDeadStack s t) : fetch t = fetch s := by
  obtain ⟨stack, rfl, -⟩ := sameButDeadStack_iff.mp h
  rfl

/-- Settles O55: both steps fetch the same word, and each instruction takes states alike but for dead entries to outcomes
that agree. -/
theorem deadStackUnobservable : Obligations.DeadStackUnobservable := by
  unfold Obligations.DeadStackUnobservable
  intro s t h
  suffices OutcomesAgree (step s) (step t) from this
  unfold step
  rw [h.fetch_eq]
  cases fetch s with
  | error e => exact .raise e
  | ok w =>
    dsimp only
    cases decodeWord w with
    | error => exact .raise _
    | ok i => exact exec_agree i h

/-! ### The font -/

/-- The font of a constructed machine stands at FONT_BASE (R31). -/
theorem State.construct_byte_font (cfg : Config) {k : Nat} (hk : k < 80) :
    (State.construct cfg).byte (cfg.fontBase.val + k) = Config.fontData.getD k 0 := by
  have hin : cfg.fontBase.val ≤ cfg.fontBase.val + k ∧ cfg.fontBase.val + k < cfg.fontBase.val + Config.fontSize :=
    ⟨Nat.le_add_right _ _, Nat.add_lt_add_left hk _⟩
  have hread : (State.construct cfg).byte (cfg.fontBase.val + k) =
    Memory.unlisted cfg.fontBase.val (cfg.fontBase.val + k) := rfl
  rw [hread, Memory.unlisted, if_pos hin, Nat.add_sub_cancel_left]

/-- Bytes read from the font are a piece of the table. -/
theorem State.construct_bytes_font (cfg : Config) : ∀ {n k : Nat}, k + n ≤ 80 →
    (State.construct cfg).bytes (cfg.fontBase.val + k) n = (Config.fontData.drop k).take n
  | 0, _, _ => rfl
  | n + 1, k, h => by
    have hk : k < Config.fontData.length := Nat.lt_of_lt_of_le (by omega) (show 80 ≤ Config.fontData.length by decide)
    rw [State.bytes, State.construct_byte_font cfg (by omega), Nat.add_assoc,
      State.construct_bytes_font cfg (n := n) (k := k + 1) (by omega), List.drop_eq_getElem_cons hk, List.take_succ_cons,
      List.getD_eq_getElem _ _ hk]

/-- Settles O39: each glyph is five bytes of the table, and the low nibbles are a check of the table's 80 bytes. -/
theorem fontGlyphsInPlace : Obligations.FontGlyphsInPlace := by
  unfold Obligations.FontGlyphsInPlace
  intro cfg
  have glyph : ∀ {k : Nat}, k + 5 ≤ 80 →
      (State.construct cfg).bytes (cfg.fontBase.val + k) 5 = (Config.fontData.drop k).take 5 :=
    State.construct_bytes_font cfg
  have low : ∀ k : Fin 80, (Config.fontData.getD k.val 0).toNat % 16 = 0 := by decide
  refine ⟨glyph (k := 0) (by omega), glyph (by omega), glyph (by omega), glyph (by omega), glyph (by omega),
    glyph (by omega), glyph (by omega), glyph (by omega), glyph (by omega), glyph (by omega), glyph (by omega),
    glyph (by omega), glyph (by omega), glyph (by omega), glyph (by omega), glyph (by omega), fun k => ?_⟩
  rw [State.construct_byte_font cfg k.isLt]
  exact low k

end Sys2Proof.Machine

/-! PROOFS of the family 20_memory.md: which bytes an instruction that completes can change, read off its `Effect`; the
uniqueness of the canonical memory; and the word that a fetch reads. -/

namespace Sys2Proof.Machine

/-! ### Which bytes an instruction changes -/

section Bytes

variable {i : Instr} {s t : State}

/-- The two stores begin above the reserved area (R54), and no other effect writes memory. -/
theorem Effect.byte_eq_of_reserved (h : Effect s i t) {a : Nat} (ha : a ≤ 0x1FF) : t.byte a = s.byte a := by
  have hstore : ∀ bs, 0x1FF < s.i.toNat → (s.setBytes s.i.toNat bs).byte a = s.byte a := fun bs hi =>
    State.setBytes_byte_of_not_mem bs _ a (.inl (by omega))
  cases h with
  | ldB bs hi => exact hstore bs hi
  | ldMemX bs hi => simpa using hstore bs hi
  | _ => simp [State.byte]

theorem Effect.keeps_mem (h : Effect s i t) (hb : ∀ x, i ≠ .ldB x) (hr : ∀ x, i ≠ .ldMemX x) : memSame s t := by
  suffices hmem : t.mem = s.mem ∧ t.cfg = s.cfg by
    obtain ⟨hm, hc⟩ := hmem
    intro a
    rw [State.byte, hm, hc, State.byte]
  cases h with
  | ldB => exact absurd rfl (hb _)
  | ldMemX => exact absurd rfl (hr _)
  | _ => simp

theorem step_byte_eq_of_reserved (h : step s = .next t) {a : Nat} (ha : a ≤ 0x1FF) : t.byte a = s.byte a := by
  obtain ⟨w, i, -, -, hx⟩ := step_next h
  exact (exec_effect hx).byte_eq_of_reserved ha

end Bytes

/-- Settles O48, by induction on the run: each of its steps executes an instruction that leaves the reserved area. -/
theorem reservedAreaNeverChanges : Obligations.ReservedAreaNeverChanges := by
  unfold Obligations.ReservedAreaNeverChanges
  intro s t h a ha
  induction h with
  | refl => rfl
  | step _ hstep ih => exact (step_byte_eq_of_reserved hstep ha).trans ih

/-- Settles O49, by the effect of the instruction. -/
theorem onlyStoresChangeMemory : Obligations.OnlyStoresChangeMemory := by
  unfold Obligations.OnlyStoresChangeMemory
  intro i s t h
  exact (exec_effect h).keeps_mem

/-! ### The canonical memory is unique -/

theorem Memory.wfFrom_cons_iff {fb lo k : Nat} {c : Byte} {rest : Memory} :
    Memory.wfFrom fb lo ((k, c) :: rest) = true ↔
      lo ≤ k ∧ k < Config.memSize ∧ c ≠ Memory.unlisted fb k ∧ Memory.wfFrom fb (k + 1) rest = true := by
  simp [Memory.wfFrom, and_assoc]

theorem Memory.read_cons_self (fb k : Nat) (c : Byte) (rest : Memory) : Memory.read fb ((k, c) :: rest) k = c :=
  if_pos rfl

theorem Memory.read_cons_of_ne {fb k a : Nat} {c : Byte} {rest : Memory} (h : a ≠ k) :
    Memory.read fb ((k, c) :: rest) a = Memory.read fb rest a :=
  if_neg h

/-- An entry differs from what its address reads as unlisted, so a canonical list that reads like this one does not begin
above the first entry. -/
theorem Memory.le_head_of_read_eq {fb lo lo' k : Nat} {c : Byte} {rest m : Memory}
    (h : Memory.wfFrom fb lo ((k, c) :: rest) = true) (h' : Memory.wfFrom fb lo' m = true)
    (hread : ∀ a, Memory.read fb ((k, c) :: rest) a = Memory.read fb m a) : lo' ≤ k := by
  by_contra hlt
  obtain ⟨-, -, hc, -⟩ := Memory.wfFrom_cons_iff.mp h
  apply hc
  calc c = Memory.read fb ((k, c) :: rest) k := (Memory.read_cons_self fb k c rest).symm
    _ = Memory.read fb m k := hread k
    _ = Memory.unlisted fb k := Memory.read_below h' (not_le.mp hlt)

/-- Canonical lists that read alike begin at the same address with the same byte, and their tails read alike. -/
theorem Memory.eq_of_read_eq {fb : Nat} : ∀ {m m' : Memory} {lo lo' : Nat}, Memory.wfFrom fb lo m = true →
    Memory.wfFrom fb lo' m' = true → (∀ a, Memory.read fb m a = Memory.read fb m' a) → m = m'
  | [], [], _, _, _, _, _ => rfl
  | [], (k, _) :: _, _, _, _, h', hread =>
    absurd (Memory.le_head_of_read_eq (lo' := k + 1) h' rfl fun a => (hread a).symm) (Nat.not_succ_le_self k)
  | (k, _) :: _, [], _, _, h, _, hread =>
    absurd (Memory.le_head_of_read_eq (lo' := k + 1) h rfl hread) (Nat.not_succ_le_self k)
  | (k, c) :: rest, (k', c') :: rest', _, _, h, h', hread => by
    obtain ⟨-, hk, hc, hrest⟩ := Memory.wfFrom_cons_iff.mp h
    obtain ⟨-, hk', hc', hrest'⟩ := Memory.wfFrom_cons_iff.mp h'
    have hle : k' ≤ k :=
      Memory.le_head_of_read_eq h (Memory.wfFrom_cons_iff.mpr ⟨le_rfl, hk', hc', hrest'⟩) hread
    have hge : k ≤ k' :=
      Memory.le_head_of_read_eq h' (Memory.wfFrom_cons_iff.mpr ⟨le_rfl, hk, hc, hrest⟩) fun a => (hread a).symm
    obtain rfl := le_antisymm hge hle
    have hbyte : c = c' := by simpa only [Memory.read_cons_self] using hread k
    have htail : ∀ a, Memory.read fb rest a = Memory.read fb rest' a := by
      intro a
      by_cases ha : a = k
      · rw [Memory.read_below hrest (by omega), Memory.read_below hrest' (by omega)]
      · simpa only [Memory.read_cons_of_ne ha] using hread a
    rw [hbyte, Memory.eq_of_read_eq hrest hrest' htail]

/-- Settles O56: the canonical form is the one from address 0 on. -/
theorem canonicalMemoryUnique : Obligations.CanonicalMemoryUnique := by
  unfold Obligations.CanonicalMemoryUnique
  intro fb m m' h h'
  exact Memory.eq_of_read_eq h h'

/-! ### The word that a fetch reads -/

theorem wordOfBytes_eq_append (hi lo : Byte) : wordOfBytes hi lo = hi ++ lo := by
  rw [wordOfBytes, BitVec.append_def, BitVec.shiftLeftZeroExtend_eq, BitVec.setWidth'_eq]

/-- Big-endian order (R57): the first byte is the high one. -/
theorem wordOfBytes_toNat (hi lo : Byte) : (wordOfBytes hi lo).toNat = 256 * hi.toNat + lo.toNat := by
  rw [wordOfBytes_eq_append, BitVec.toNat_append, ← Nat.shiftLeft_add_eq_or_of_lt lo.isLt, Nat.shiftLeft_eq,
    Nat.mul_comm]

/-- Fetch at a legal PC (R55). -/
theorem fetch_toNat {s : State} (heven : s.pc.toNat % 2 = 0) (hpc : s.pc.toNat + 1 ≤ 0xFFF) :
    ∃ w, fetch s = .ok w ∧ w.toNat = 256 * (s.byte s.pc.toNat).toNat + (s.byte (s.pc.toNat + 1)).toNat := by
  refine ⟨_, ?_, wordOfBytes_toNat _ _⟩
  rw [fetch, if_pos (fetchable_iff.mpr ⟨heven, hpc⟩)]

/-- Fetch at any other PC. -/
theorem fetch_invalid {s : State} (h : ¬(s.pc.toNat % 2 = 0 ∧ s.pc.toNat + 1 ≤ 0xFFF)) :
    fetch s = .error (.invalidFetch s.pc) := by
  rw [fetch, if_neg (mt fetchable_iff.mp h)]

/-- Settles O5: the step hands on the error of its fetch. -/
theorem fetchChecksThenReadsBigEndian : Obligations.FetchChecksThenReadsBigEndian := by
  unfold Obligations.FetchChecksThenReadsBigEndian
  intro s
  refine ⟨fun hbad => ?_, fetch_toNat⟩
  rw [step, fetch_invalid (by omega)]
  rfl

/-! ### A stored word is fetched -/

/-- After FX55 the byte at I + k is V[k], whatever becomes of I (R153). -/
theorem execLdMemX_byte {x k : RegIdx} {s t : State} (hm : Memory.wf s.cfg.fontBase.val s.mem = true)
    (h : execLdMemX x s = .next t) (hk : k ≤ x) : t.byte (s.i.toNat + k.val) = s.getV k := by
  obtain ⟨-, hend, rfl⟩ := execLdMemX_next h
  have hlen := regsUpTo_length s x
  have hsize : Config.memSize = 0x1000 := rfl
  have hkx : k.val ≤ x.val := hk
  rw [State.advance_byte, afterAccess_byte,
    State.setBytes_byte (regsUpTo s x) s.i.toNat k.val (by omega) hm (by omega), regsUpTo_getElem s x k hk]

/-- Settles O28: the address of a stored byte is in memory, so it is a legal PC when it is even, and the fetch there reads
the two bytes stored. -/
theorem storedWordIsFetched : Obligations.StoredWordIsFetched := by
  unfold Obligations.StoredWordIsFetched
  intro x k k' s t hm h hk' hk'x heven
  obtain ⟨-, hend, -⟩ := execLdMemX_next h
  have hk'x' : k'.val ≤ x.val := hk'x
  have hkx : k ≤ x := Fin.le_def.mpr (by omega)
  have hpc : (BitVec.ofNat 16 (s.i.toNat + k.val)).toNat = s.i.toNat + k.val := by
    rw [BitVec.toNat_ofNat]
    omega
  have hbyte := execLdMemX_byte hm h hkx
  have hbyte' := execLdMemX_byte hm h hk'x
  rw [hk', ← Nat.add_assoc] at hbyte'
  have hf := fetch_toNat (s := t.setPc (BitVec.ofNat 16 (s.i.toNat + k.val)))
    (by rw [State.setPc_pc, hpc]; exact heven) (by rw [State.setPc_pc, hpc]; omega)
  rwa [State.setPc_pc, hpc, State.setPc_byte, State.setPc_byte, hbyte, hbyte'] at hf

end Sys2Proof.Machine

/-! PROOFS of the family 30_encoding.md: the fields and the formats of a word in plain arithmetic, what the decoder answers,
class by class (`DecodesTo`), and the two directions of the round trip read off these. -/

namespace Sys2Proof.Machine

/-! ### The fields of a word (R82) in plain arithmetic -/

theorem fieldClass_eq (w : Word) : fieldClass w = w.toNat / 4096 := by
  rw [fieldClass, BitVec.extractLsb'_toNat, Nat.shiftRight_eq_div_pow]
  have := w.isLt
  omega

theorem fieldClass_lt (w : Word) : fieldClass w < 16 :=
  (w.extractLsb' 12 4).isLt

theorem fieldX_val (w : Word) : (fieldX w).val = w.toNat / 256 % 16 := by
  rw [fieldX, BitVec.val_toFin, BitVec.extractLsb'_toNat, Nat.shiftRight_eq_div_pow]

theorem fieldY_val (w : Word) : (fieldY w).val = w.toNat / 16 % 16 := by
  rw [fieldY, BitVec.val_toFin, BitVec.extractLsb'_toNat, Nat.shiftRight_eq_div_pow]

theorem fieldN_toNat (w : Word) : (fieldN w).toNat = w.toNat % 16 := by
  rw [fieldN, BitVec.extractLsb'_toNat, Nat.shiftRight_zero]

theorem fieldNN_toNat (w : Word) : (fieldNN w).toNat = w.toNat % 256 := by
  rw [fieldNN, BitVec.extractLsb'_toNat, Nat.shiftRight_zero]

theorem fieldNNN_toNat (w : Word) : (fieldNNN w).toNat = w.toNat % 4096 := by
  rw [fieldNNN, BitVec.extractLsb'_toNat, Nat.shiftRight_zero]

/-! ### The formats (R81) in plain arithmetic -/

/-- A field or-ed into a place where the base has only zeros is added there. -/
theorem or_field_toNat {m k : Nat} (hk : k + m ≤ 16) {base : Word} (v : BitVec m)
    (h : base.toNat / 2 ^ k % 2 ^ m = 0) :
    (base ||| v.setWidth 16 <<< k).toNat = base.toNat + 2 ^ k * v.toNat := by
  have hdisjoint : base &&& v.setWidth 16 <<< k = 0#16 := by
    apply BitVec.eq_of_getLsbD_eq
    intro i hi
    rw [BitVec.getLsbD_and, BitVec.getLsbD_shiftLeft, BitVec.getLsbD_setWidth, BitVec.getLsbD_zero]
    by_cases hin : k ≤ i ∧ i - k < m
    · have hbit : base.getLsbD i = false := by
        have := congrArg (·.testBit (i - k)) h
        simpa [Nat.testBit_mod_two_pow, Nat.testBit_div_two_pow, hin, BitVec.getLsbD] using this
      rw [hbit, Bool.false_and]
    · rcases not_and_or.mp hin with hlow | hhigh
      · simp [Nat.lt_of_not_le hlow]
      · simp [BitVec.getLsbD_of_ge v (i - k) (Nat.le_of_not_lt hhigh)]
  have hfit : 2 ^ k * v.toNat < 2 ^ 16 :=
    calc 2 ^ k * v.toNat < 2 ^ k * 2 ^ m := Nat.mul_lt_mul_of_pos_left v.isLt (Nat.two_pow_pos k)
      _ = 2 ^ (k + m) := (Nat.pow_add 2 k m).symm
      _ ≤ 2 ^ 16 := Nat.pow_le_pow_right (by decide) hk
  have hv : v.toNat < 2 ^ 16 := Nat.lt_of_lt_of_le v.isLt (Nat.pow_le_pow_right (by decide) (by omega))
  rw [← BitVec.add_eq_or_of_and_eq_zero _ _ hdisjoint, BitVec.toNat_add_of_and_eq_zero hdisjoint,
    BitVec.toNat_shiftLeft, BitVec.toNat_setWidth, Nat.mod_eq_of_lt hv, Nat.shiftLeft_eq, Nat.mul_comm,
    Nat.mod_eq_of_lt hfit]

@[simp] theorem regNibble_toNat (r : RegIdx) : (regNibble r).toNat = r.val := rfl

theorem encodeANNN_toNat {base : Word} (h : base.toNat % 4096 = 0) (nnn : Addr12) :
    (encodeANNN base nnn).toNat = base.toNat + nnn.toNat := by
  simpa [encodeANNN] using or_field_toNat (k := 0) (by decide) nnn (by simpa using h)

theorem encodeAX_toNat {base : Word} (h : base.toNat / 256 % 16 = 0) (x : RegIdx) :
    (encodeAX base x).toNat = base.toNat + 256 * x.val :=
  or_field_toNat (k := 8) (by decide) (regNibble x) h

theorem encodeAXNN_toNat {base : Word} (h : base.toNat % 4096 = 0) (x : RegIdx) (nn : Byte) :
    (encodeAXNN base x nn).toNat = base.toNat + 256 * x.val + nn.toNat := by
  have hX := encodeAX_toNat (base := base) (by omega) x
  have hNN := or_field_toNat (k := 0) (base := encodeAX base x) (by decide) nn (by rw [hX]; omega)
  simpa [encodeAXNN, hX] using hNN

theorem encodeAXY_toNat {base : Word} (h : base.toNat / 16 % 256 = 0) (x y : RegIdx) :
    (encodeAXY base x y).toNat = base.toNat + 256 * x.val + 16 * y.val := by
  have hX := encodeAX_toNat (base := base) (by omega) x
  have hY := or_field_toNat (k := 4) (base := encodeAX base x) (by decide) (regNibble y) (by rw [hX]; omega)
  rwa [hX] at hY

theorem encodeAXYN_toNat {base : Word} (h : base.toNat % 4096 = 0) (x y : RegIdx) (n : Nibble) :
    (encodeAXYN base x y n).toNat = base.toNat + 256 * x.val + 16 * y.val + n.toNat := by
  have hXY := encodeAXY_toNat (base := base) (by omega) x y
  have hN := or_field_toNat (k := 0) (base := encodeAXY base x y) (by decide) n (by rw [hXY]; omega)
  simpa [encodeAXYN, hXY] using hN

/-! ### The fields of a word in a format: decoding's reads of what the format writes -/

theorem fields_encodeANNN {base : Word} (h : base.toNat % 4096 = 0) (nnn : Addr12) :
    fieldClass (encodeANNN base nnn) = base.toNat / 4096 ∧ fieldNNN (encodeANNN base nnn) = nnn := by
  refine ⟨?_, BitVec.eq_of_toNat_eq ?_⟩
  · rw [fieldClass_eq, encodeANNN_toNat h]
    omega
  · rw [fieldNNN_toNat, encodeANNN_toNat h]
    omega

theorem fields_encodeAX {base : Word} (h : base.toNat / 256 % 16 = 0) (x : RegIdx) :
    fieldClass (encodeAX base x) = base.toNat / 4096 ∧ fieldX (encodeAX base x) = x ∧
      fieldNN (encodeAX base x) = base.setWidth 8 := by
  refine ⟨?_, Fin.ext ?_, BitVec.eq_of_toNat_eq ?_⟩
  · rw [fieldClass_eq, encodeAX_toNat h]
    omega
  · rw [fieldX_val, encodeAX_toNat h]
    omega
  · rw [fieldNN_toNat, BitVec.toNat_setWidth, encodeAX_toNat h]
    omega

theorem fields_encodeAXNN {base : Word} (h : base.toNat % 4096 = 0) (x : RegIdx) (nn : Byte) :
    fieldClass (encodeAXNN base x nn) = base.toNat / 4096 ∧ fieldX (encodeAXNN base x nn) = x ∧
      fieldNN (encodeAXNN base x nn) = nn := by
  refine ⟨?_, Fin.ext ?_, BitVec.eq_of_toNat_eq ?_⟩
  · rw [fieldClass_eq, encodeAXNN_toNat h]
    omega
  · rw [fieldX_val, encodeAXNN_toNat h]
    omega
  · rw [fieldNN_toNat, encodeAXNN_toNat h]
    omega

theorem fields_encodeAXY {base : Word} (h : base.toNat / 16 % 256 = 0) (x y : RegIdx) :
    fieldClass (encodeAXY base x y) = base.toNat / 4096 ∧ fieldX (encodeAXY base x y) = x ∧
      fieldY (encodeAXY base x y) = y ∧ fieldN (encodeAXY base x y) = base.setWidth 4 := by
  refine ⟨?_, Fin.ext ?_, Fin.ext ?_, BitVec.eq_of_toNat_eq ?_⟩
  · rw [fieldClass_eq, encodeAXY_toNat h]
    omega
  · rw [fieldX_val, encodeAXY_toNat h]
    omega
  · rw [fieldY_val, encodeAXY_toNat h]
    omega
  · rw [fieldN_toNat, BitVec.toNat_setWidth, encodeAXY_toNat h]
    omega

theorem fields_encodeAXYN {base : Word} (h : base.toNat % 4096 = 0) (x y : RegIdx) (n : Nibble) :
    fieldClass (encodeAXYN base x y n) = base.toNat / 4096 ∧ fieldX (encodeAXYN base x y n) = x ∧
      fieldY (encodeAXYN base x y n) = y ∧ fieldN (encodeAXYN base x y n) = n := by
  refine ⟨?_, Fin.ext ?_, Fin.ext ?_, BitVec.eq_of_toNat_eq ?_⟩
  · rw [fieldClass_eq, encodeAXYN_toNat h]
    omega
  · rw [fieldX_val, encodeAXYN_toNat h]
    omega
  · rw [fieldY_val, encodeAXYN_toNat h]
    omega
  · rw [fieldN_toNat, encodeAXYN_toNat h]
    omega

/-! ### Decoding what was encoded -/

theorem sys_wellFormed_iff (nnn : Addr12) : (Instr.sys nnn).wellFormed = true ↔ nnn ≠ 0x0E0#12 ∧ nnn ≠ 0x0EE#12 := by
  simp [Instr.wellFormed]

/-- Class 0 gives SYS for every address but the two of CLS and RET (R86). -/
theorem decodeClass0_encodeANNN {nnn : Addr12} (h : (Instr.sys nnn).wellFormed = true) :
    decodeClass0 (encodeANNN 0x0000 nnn) = .sys nnn := by
  obtain ⟨hcls, hret⟩ := (sys_wellFormed_iff nnn).mp h
  obtain ⟨-, hnnn⟩ := fields_encodeANNN (base := 0x0000) (by decide) nnn
  rw [decodeClass0, if_neg, if_neg, hnnn]
  · intro hw
    exact hret (by rw [← hnnn, hw]; rfl)
  · intro hw
    exact hcls (by rw [← hnnn, hw]; rfl)

/-- Settles O1, format by format: the class and the selector are the base's, and each operand is read where the format
put it. -/
theorem encodeThenDecode : Obligations.EncodeThenDecode := by
  unfold Obligations.EncodeThenDecode
  intro i hwf
  cases i with
  | cls | ret => rfl
  | sys nnn =>
    rw [encode, decodeWord, (fields_encodeANNN (by decide) nnn).1]
    exact congrArg Except.ok (decodeClass0_encodeANNN hwf)
  | jp nnn | call nnn | ldI nnn | jpV0 nnn =>
    simp [encode, decodeWord, fields_encodeANNN]
  | seImm x nn | sneImm x nn | ldImm x nn | addImm x nn | rnd x nn =>
    simp [encode, decodeWord, fields_encodeAXNN]
  | seReg x y | sneReg x y | ldReg x y | or x y | and x y | xor x y | addReg x y | sub x y | shr x y | subn x y
  | shl x y =>
    simp [encode, decodeWord, decodeClass8, fields_encodeAXY]
  | drw x y n => simp [encode, decodeWord, fields_encodeAXYN]
  | skp x | sknp x => simp [encode, decodeWord, decodeClassE, fields_encodeAX]
  | ldXDt x | ldXK x | ldDtX x | ldStX x | addI x | ldF x | ldB x | ldMemX x | ldXMem x =>
    simp [encode, decodeWord, decodeClassF, fields_encodeAX]

/-! ### A format over the fields of a word gives the word back -/

theorem encodeANNN_fields {base w : Word} (h : base.toNat = 4096 * fieldClass w) :
    encodeANNN base (fieldNNN w) = w := by
  rw [fieldClass_eq] at h
  apply BitVec.eq_of_toNat_eq
  rw [encodeANNN_toNat (by omega), fieldNNN_toNat]
  omega

theorem encodeAX_fields {base w : Word} (h : base.toNat = 4096 * fieldClass w + (fieldNN w).toNat) :
    encodeAX base (fieldX w) = w := by
  rw [fieldClass_eq, fieldNN_toNat] at h
  apply BitVec.eq_of_toNat_eq
  rw [encodeAX_toNat (by omega), fieldX_val]
  omega

theorem encodeAXNN_fields {base w : Word} (h : base.toNat = 4096 * fieldClass w) :
    encodeAXNN base (fieldX w) (fieldNN w) = w := by
  rw [fieldClass_eq] at h
  apply BitVec.eq_of_toNat_eq
  rw [encodeAXNN_toNat (by omega), fieldX_val, fieldNN_toNat]
  omega

theorem encodeAXY_fields {base w : Word} (h : base.toNat = 4096 * fieldClass w + (fieldN w).toNat) :
    encodeAXY base (fieldX w) (fieldY w) = w := by
  rw [fieldClass_eq, fieldN_toNat] at h
  apply BitVec.eq_of_toNat_eq
  rw [encodeAXY_toNat (by omega), fieldX_val, fieldY_val]
  omega

theorem encodeAXYN_fields {base w : Word} (h : base.toNat = 4096 * fieldClass w) :
    encodeAXYN base (fieldX w) (fieldY w) (fieldN w) = w := by
  rw [fieldClass_eq] at h
  apply BitVec.eq_of_toNat_eq
  rw [encodeAXYN_toNat (by omega), fieldX_val, fieldY_val, fieldN_toNat]
  omega

/-! ### What the decoder answers -/

/-- R91's list in the fields that the decoder reads. -/
theorem illegalWord_iff (w : Word) : illegalWord w ↔
    (fieldClass w = 0x0 ∧ w ≠ 0x00E0#16 ∧ w ≠ 0x00EE#16) ∨
    (fieldClass w = 0x5 ∧ fieldN w ≠ 0x0#4) ∨ (fieldClass w = 0x9 ∧ fieldN w ≠ 0x0#4) ∨
    (fieldClass w = 0x8 ∧ (fieldN w).toNat ∈ [0x8, 0x9, 0xA, 0xB, 0xC, 0xD, 0xF]) ∨
    (fieldClass w = 0xE ∧ fieldNN w ∉ [0x9E#8, 0xA1#8]) ∨
    (fieldClass w = 0xF ∧ fieldNN w ∉ [0x07#8, 0x0A#8, 0x15#8, 0x18#8, 0x1E#8, 0x29#8, 0x33#8, 0x55#8, 0x65#8]) := by
  simp [illegalWord, fieldClass_eq, fieldN_toNat, fieldNN_toNat, ← BitVec.toNat_inj]

/-- What an answer of the decoder on `w` has to be: an instruction whose word is `w`, SYS exactly when `w` is illegal; or
the refusal of `w` itself, which is illegal. -/
def DecodesTo (w : Word) : Except DecodeError Instr → Prop
  | .ok i => encode i = w ∧ i.wellFormed = true ∧ (illegalWord w ↔ ∃ nnn, i = .sys nnn)
  | .error e => e = .unknown w ∧ illegalWord w

/-- A row of the table other than SYS answers a legal word. -/
theorem DecodesTo.row {w : Word} {i : Instr} (hlegal : ¬illegalWord w) (hword : encode i = w)
    (hwf : i.wellFormed = true) (hsys : ∀ nnn, i ≠ .sys nnn) : DecodesTo w (.ok i) :=
  ⟨hword, hwf, iff_of_false hlegal fun ⟨nnn, h⟩ => hsys nnn h⟩

theorem decodesTo_class0 {w : Word} (hc : fieldClass w = 0x0) : DecodesTo w (.ok (decodeClass0 w)) := by
  have hillegal : illegalWord w ↔ w ≠ 0x00E0#16 ∧ w ≠ 0x00EE#16 := by simp [illegalWord_iff, hc]
  unfold decodeClass0
  split_ifs with hcls hret
  · exact .row (fun h => (hillegal.mp h).1 hcls) hcls.symm rfl nofun
  · exact .row (fun h => (hillegal.mp h).2 hret) hret.symm rfl nofun
  · have hword : encodeANNN 0x0000 (fieldNNN w) = w := encodeANNN_fields (by rw [hc]; rfl)
    refine ⟨hword, (sys_wellFormed_iff _).mpr ⟨?_, ?_⟩, iff_of_true (hillegal.mpr ⟨hcls, hret⟩) ⟨_, rfl⟩⟩
    · intro h
      exact hcls (by rw [← hword, h]; rfl)
    · intro h
      exact hret (by rw [← hword, h]; rfl)

theorem decodesTo_class8 {w : Word} (hc : fieldClass w = 0x8) : DecodesTo w (decodeClass8 w) := by
  have hillegal : illegalWord w ↔ (fieldN w).toNat ∈ [0x8, 0x9, 0xA, 0xB, 0xC, 0xD, 0xF] := by
    simp [illegalWord_iff, hc]
  unfold decodeClass8
  split
  case h_10 =>
    have hlt := (fieldN w).isLt
    refine ⟨rfl, hillegal.mpr ?_⟩
    simp only [imp_false, List.mem_cons, List.not_mem_nil, or_false] at *
    omega
  all_goals
    rename_i hN
    exact .row (by rw [hillegal, hN]; decide) (encodeAXY_fields (by rw [hc, hN]; rfl)) rfl nofun

theorem decodesTo_classE {w : Word} (hc : fieldClass w = 0xE) : DecodesTo w (decodeClassE w) := by
  have hillegal : illegalWord w ↔ fieldNN w ∉ [0x9E#8, 0xA1#8] := by simp [illegalWord_iff, hc]
  unfold decodeClassE
  split_ifs with h h'
  · exact .row (by rw [hillegal, h]; decide) (encodeAX_fields (by rw [hc, h]; rfl)) rfl nofun
  · exact .row (by rw [hillegal, h']; decide) (encodeAX_fields (by rw [hc, h']; rfl)) rfl nofun
  · exact ⟨rfl, hillegal.mpr (by simp [h, h'])⟩

theorem decodesTo_classF {w : Word} (hc : fieldClass w = 0xF) : DecodesTo w (decodeClassF w) := by
  have hillegal : illegalWord w ↔
      fieldNN w ∉ [0x07#8, 0x0A#8, 0x15#8, 0x18#8, 0x1E#8, 0x29#8, 0x33#8, 0x55#8, 0x65#8] := by
    simp [illegalWord_iff, hc]
  unfold decodeClassF
  split_ifs
  case neg => exact ⟨rfl, hillegal.mpr (by simp [*])⟩
  all_goals
    rename_i hNN
    exact .row (by rw [hillegal, hNN]; decide) (encodeAX_fields (by rw [hc, hNN]; rfl)) rfl nofun

/-- The two classes whose low nibble must be 0 (R84): `i` is 5XY0 or 9XY0. -/
theorem decodesTo_ite_fieldN {w : Word} {i : Instr} (hillegal : illegalWord w ↔ fieldN w ≠ 0x0#4)
    (hword : fieldN w = 0x0#4 → encode i = w) (hwf : i.wellFormed = true) (hsys : ∀ nnn, i ≠ .sys nnn) :
    DecodesTo w (if fieldN w = 0x0#4 then .ok i else .error (.unknown w)) := by
  split_ifs with h
  · exact .row (by simp [hillegal, h]) (hword h) hwf hsys
  · exact ⟨rfl, hillegal.mpr h⟩

/-- The decoder, class by class (R85). -/
theorem decodesTo_decodeWord (w : Word) : DecodesTo w (decodeWord w) := by
  unfold decodeWord
  split
  case h_1 hc => exact decodesTo_class0 hc
  case h_9 hc => exact decodesTo_class8 hc
  case h_15 hc => exact decodesTo_classE hc
  case h_16 hc => exact decodesTo_classF hc
  case h_6 hc | h_10 hc =>
    exact decodesTo_ite_fieldN (by simp [illegalWord_iff, hc]) (fun h => encodeAXY_fields (by rw [hc, h]; rfl)) rfl
      nofun
  case h_2 hc | h_3 hc | h_11 hc | h_12 hc =>
    exact .row (by simp [illegalWord_iff, hc]) (encodeANNN_fields (by rw [hc]; rfl)) rfl nofun
  case h_4 hc | h_5 hc | h_7 hc | h_8 hc | h_13 hc =>
    exact .row (by simp [illegalWord_iff, hc]) (encodeAXNN_fields (by rw [hc]; rfl)) rfl nofun
  case h_14 hc => exact .row (by simp [illegalWord_iff, hc]) (encodeAXYN_fields (by rw [hc]; rfl)) rfl nofun
  case h_17 =>
    have hlt := fieldClass_lt w
    simp only [imp_false] at *
    omega

/-- Settles O2: it is what `DecodesTo` says of an instruction. -/
theorem decodeThenEncode : Obligations.DecodeThenEncode := by
  unfold Obligations.DecodeThenEncode
  intro w i h
  have hspec := decodesTo_decodeWord w
  rw [h] at hspec
  obtain ⟨hword, hwf, -⟩ := hspec
  exact ⟨hword, hwf⟩

/-- Settles O3: a refusal answers an illegal word, and of the instructions only SYS does. -/
theorem illegalWordsAreTheListed : Obligations.IllegalWordsAreTheListed := by
  unfold Obligations.IllegalWordsAreTheListed
  intro w
  have hspec := decodesTo_decodeWord w
  cases h : decodeWord w with
  | ok i =>
    rw [h] at hspec
    obtain ⟨-, -, hsys⟩ := hspec
    simpa using hsys
  | error e =>
    rw [h] at hspec
    obtain ⟨rfl, hillegal⟩ := hspec
    exact iff_of_true hillegal (.inl rfl)

/-- Settles O4: each word is a closed one. -/
theorem specWordsDecode : Obligations.SpecWordsDecode := by
  unfold Obligations.SpecWordsDecode
  decide

end Sys2Proof.Machine

/-! PROOFS of the family 40_arithmetic.md: the two shapes of an arithmetic instruction (a result in V[X] alone, and a result
and then a flag), each with its frame, and the results and flags in plain arithmetic. -/

namespace Sys2Proof.Machine

/-! ### The two shapes -/

theorem onlyRegs_setV_advance (s : State) (x : RegIdx) (b : Byte) : onlyRegs [x] s (s.setV x b).advance := by
  have hregs : regsSame [x] s (s.setV x b).advance := fun r hr => by simp [List.mem_singleton.not.mp hr]
  refine ⟨hregs, ?_⟩
  simp [memSame, stackSame, dispSame, timersSame, fixedSame, drawsSame]

theorem onlyRegs_setResult_advance (s : State) (x : RegIdx) (b : Byte) (c : Bool) :
    onlyRegs [x, 15] s (s.setResult x b c).advance := by
  have hregs : regsSame [x, 15] s (s.setResult x b c).advance := fun r hr => by
    obtain ⟨hx, hf⟩ : r ≠ x ∧ r ≠ regF := by simpa [regF] using hr
    simp [State.setResult_getV, hx, hf]
  refine ⟨hregs, ?_⟩
  simp [memSame, stackSame, dispSame, timersSame, fixedSame, drawsSame]

/-- An instruction that writes `b` to V[X] and no flag, read off as the value `n` of `b`. -/
theorem exec_setV_spec {i : Instr} {s : State} {x : RegIdx} {b : Byte} {n : Nat}
    (h : exec i s = .next (s.setV x b).advance) (hb : b.toNat = n) :
    ∃ t, exec i s = .next t ∧ (t.getV x).toNat = n ∧ t.pc = s.pc + 2 ∧ onlyRegs [x] s t :=
  ⟨_, h, by simp [hb], rfl, onlyRegs_setV_advance s x b⟩

/-- An instruction that writes a result `b` to V[X] and then a flag `c` to VF, which remains when X = F (R23). -/
theorem exec_setResult_spec {i : Instr} {s : State} {x : RegIdx} {b : Byte} {c : Bool} {n f : Nat}
    (h : exec i s = .next (s.setResult x b c).advance) (hb : b.toNat = n) (hc : (flagByte c).toNat = f) :
    ∃ t, exec i s = .next t ∧ (x ≠ 15 → (t.getV x).toNat = n) ∧ (t.getV 15).toNat = f ∧ t.pc = s.pc + 2 ∧
      onlyRegs [x, 15] s t := by
  refine ⟨_, h, fun hx => ?_, ?_, rfl, onlyRegs_setResult_advance s x b c⟩
  · have hx : x ≠ regF := hx
    simp [State.setResult_getV, hx, hb]
  · simp [State.setResult_getV, regF, hc]

/-! ### Results and flags in plain arithmetic -/

theorem sub_toNat (a b : Byte) : (a - b).toNat = (a.toNat + 256 - b.toNat) % 256 := by
  rw [BitVec.toNat_sub]
  omega

theorem shiftRight_one_toNat (b : Byte) : (b >>> 1).toNat = b.toNat / 2 := by
  rw [BitVec.toNat_ushiftRight, Nat.shiftRight_eq_div_pow, Nat.pow_one]

theorem shiftLeft_one_toNat (b : Byte) : (b <<< 1).toNat = b.toNat * 2 % 256 := by
  rw [BitVec.toNat_shiftLeft, Nat.shiftLeft_eq, Nat.pow_one]

theorem flagByte_toNat (c : Bool) : (flagByte c).toNat = c.toNat := by
  cases c <;> rfl

theorem flagByte_carry_toNat (a b : Byte) :
    (flagByte (carry a b)).toNat = if 255 < a.toNat + b.toNat then 1 else 0 := by
  rw [flagByte_toNat, carry, Bool.toNat, Bool.cond_decide]

theorem flagByte_noBorrow_toNat (a b : Byte) :
    (flagByte (noBorrow a b)).toNat = if b.toNat ≤ a.toNat then 1 else 0 := by
  rw [flagByte_toNat, noBorrow, Bool.toNat, Bool.cond_decide]

theorem flagByte_shiftedOutRight_toNat (b : Byte) : (flagByte (shiftedOutRight b)).toNat = b.toNat % 2 := by
  rw [flagByte_toNat, shiftedOutRight, BitVec.getLsbD, Nat.toNat_testBit, Nat.pow_zero, Nat.div_one]

/-- Bit 7 is the highest of a byte, so nothing of the quotient is cut off. -/
theorem flagByte_shiftedOutLeft_toNat (b : Byte) : (flagByte (shiftedOutLeft b)).toNat = b.toNat / 128 := by
  rw [flagByte_toNat, shiftedOutLeft, BitVec.getLsbD, Nat.toNat_testBit]
  have := b.isLt
  omega

/-! ### The statements -/

/-- Settles O10, form by form. -/
theorem loadsAndLogicWriteVx : Obligations.LoadsAndLogicWriteVx := by
  unfold Obligations.LoadsAndLogicWriteVx
  intro x y nn s
  exact
    ⟨⟨encodeAXNN_toNat (by decide) x nn, _, rfl, by simp, rfl, onlyRegs_setV_advance s x nn⟩,
      ⟨encodeAXY_toNat (by decide) x y, _, rfl, by simp, rfl, onlyRegs_setV_advance s x (s.getV y)⟩,
      ⟨encodeAXY_toNat (by decide) x y, exec_setV_spec rfl (BitVec.toNat_or _ _)⟩,
      ⟨encodeAXY_toNat (by decide) x y, exec_setV_spec rfl (BitVec.toNat_and _ _)⟩,
      ⟨encodeAXY_toNat (by decide) x y, exec_setV_spec rfl (BitVec.toNat_xor _ _)⟩⟩

/-- Settles O11. -/
theorem addImmWrapsWithoutFlag : Obligations.AddImmWrapsWithoutFlag := by
  unfold Obligations.AddImmWrapsWithoutFlag
  intro x nn s
  exact ⟨encodeAXNN_toNat (by decide) x nn, exec_setV_spec rfl (BitVec.toNat_add _ _)⟩

/-- Settles O12. -/
theorem addRegSumAndCarry : Obligations.AddRegSumAndCarry := by
  unfold Obligations.AddRegSumAndCarry
  intro x y s
  exact ⟨encodeAXY_toNat (by decide) x y, exec_setResult_spec rfl (BitVec.toNat_add _ _) (flagByte_carry_toNat _ _)⟩

/-- Settles O13. -/
theorem subDifferenceAndNotBorrow : Obligations.SubDifferenceAndNotBorrow := by
  unfold Obligations.SubDifferenceAndNotBorrow
  intro x y s
  exact ⟨encodeAXY_toNat (by decide) x y, exec_setResult_spec rfl (sub_toNat _ _) (flagByte_noBorrow_toNat _ _)⟩

/-- Settles O14: O13's arithmetic with the operands exchanged. -/
theorem subnDifferenceAndNotBorrow : Obligations.SubnDifferenceAndNotBorrow := by
  unfold Obligations.SubnDifferenceAndNotBorrow
  intro x y s
  exact ⟨encodeAXY_toNat (by decide) x y, exec_setResult_spec rfl (sub_toNat _ _) (flagByte_noBorrow_toNat _ _)⟩

/-- Settles O15: the source is `shiftSource` under either value of the quirk. -/
theorem shrHalvesAndKeepsBitZero : Obligations.ShrHalvesAndKeepsBitZero := by
  unfold Obligations.ShrHalvesAndKeepsBitZero
  intro x y s
  obtain ⟨t, ht⟩ := exec_setResult_spec (i := .shr x y) (s := s) rfl (shiftRight_one_toNat _)
    (flagByte_shiftedOutRight_toNat _)
  exact ⟨encodeAXY_toNat (by decide) x y, shiftSource s x y, t, rfl, ht⟩

/-- Settles O16: the source is `shiftSource` under either value of the quirk. -/
theorem shlDoublesAndKeepsBitSeven : Obligations.ShlDoublesAndKeepsBitSeven := by
  unfold Obligations.ShlDoublesAndKeepsBitSeven
  intro x y s
  obtain ⟨t, ht⟩ := exec_setResult_spec (i := .shl x y) (s := s) rfl (shiftLeft_one_toNat _)
    (flagByte_shiftedOutLeft_toNat _)
  exact ⟨encodeAXY_toNat (by decide) x y, shiftSource s x y, t, rfl, ht⟩

end Sys2Proof.Machine

/-! PROOFS of the family 41_control_flow.md: the operands widened to 16 bits in plain arithmetic, the frame of a write of PC
and of a stack operation, and when CALL and RET complete. -/

namespace Sys2Proof.Machine

/-! ### Operands in plain arithmetic -/

@[simp] theorem zext12_toNat (nnn : Addr12) : (zext12 nnn).toNat = nnn.toNat :=
  BitVec.toNat_setWidth_of_le (by decide)

@[simp] theorem zext8_toNat (b : Byte) : (zext8 b).toNat = b.toNat :=
  BitVec.toNat_setWidth_of_le (by decide)

/-- The target of BNNN is an exact sum: it stays below 0x10000 (R134). -/
theorem jumpTarget_toNat (nnn : Addr12) (b : Byte) : (zext12 nnn + zext8 b).toNat = nnn.toNat + b.toNat := by
  rw [BitVec.toNat_add_of_lt, zext12_toNat, zext8_toNat]
  rw [zext12_toNat, zext8_toNat]
  omega

theorem regOfNNN_val (nnn : Addr12) : (regOfNNN nnn).val = nnn.toNat / 256 := by
  rw [regOfNNN, BitVec.val_toFin, BitVec.extractLsb'_toNat, Nat.shiftRight_eq_div_pow]
  omega

/-- The offset of BNNN is V[NNN[11:8]] under `Q_JUMP_VX` and V0 otherwise (R134). -/
theorem jumpOffset_eq_getV (s : State) (nnn : Addr12) :
    ∃ r : RegIdx, r.val = (if s.cfg.quirks.jumpVx = true then nnn.toNat / 256 else 0) ∧
      jumpOffset s nnn = s.getV r := by
  unfold jumpOffset
  split
  · exact ⟨regOfNNN nnn, regOfNNN_val nnn, rfl⟩
  · exact ⟨0, rfl, rfl⟩

/-! ### What a control instruction leaves unchanged -/

theorem onlyRegs_setPc (s : State) (w : Word) : onlyRegs [] s (s.setPc w) := by
  simp [onlyRegs, regsSame, memSame, stackSame, dispSame, timersSame, fixedSame, drawsSame]

/-- A skip on the condition `c`, read off as the proposition `p` that it decides (R130). -/
theorem exec_skipIf_spec {i : Instr} {s : State} {c : Bool} {p : Prop} [Decidable p]
    (h : exec i s = .next (s.skipIf c)) (hc : c = true ↔ p) :
    ∃ t, exec i s = .next t ∧ t.pc = (if p then s.pc + 4 else s.pc + 2) ∧ onlyRegs [] s t :=
  ⟨_, h, if_congr hc rfl rfl, onlyRegs_setPc s _⟩

/-- A push or a pop with a write of PC leaves everything but the stack and PC. -/
theorem frame_of_stack_pc {s t : State} {stack : Vector Word 16} {sp : Fin 17} {pc : Word}
    (h : t = { s with stack := stack, sp := sp, pc := pc }) :
    regsSame [] s t ∧ t.i = s.i ∧ memSame s t ∧ dispSame s t ∧ timersSame s t ∧ fixedSame s t ∧ drawsSame s t := by
  subst h
  exact ⟨fun _ _ => rfl, rfl, fun _ => rfl, fun _ _ => rfl, ⟨rfl, rfl⟩, ⟨rfl, rfl⟩, rfl⟩

/-! ### When CALL and RET complete -/

theorem execCall_of_full (nnn : Addr12) {s : State} (h : s.sp.val = 16) :
    execCall nnn s = .fault (.stackOverflow (s.pc + 2)) := by
  rw [execCall, State.push_eq_none_iff.mpr (Fin.ext h)]
  rfl

theorem execCall_completes (nnn : Addr12) {s : State} (h : s.sp.val < 16) : ∃ t, execCall nnn s = .next t := by
  unfold execCall
  cases hp : s.push (s.pc + 2) with
  | none => exact absurd (congrArg Fin.val (State.push_eq_none_iff.mp hp)) h.ne
  | some u => exact ⟨_, rfl⟩

theorem execRet_of_empty {s : State} (h : s.sp.val = 0) : execRet s = .fault .stackUnderflow := by
  rw [execRet, State.pop_eq_none_iff.mpr h]
  rfl

theorem execRet_completes {s : State} (h : 0 < s.sp.val) : ∃ t, execRet s = .next t := by
  unfold execRet
  cases hp : s.pop with
  | none => exact absurd (State.pop_eq_none_iff.mp hp) h.ne'
  | some p => exact ⟨_, rfl⟩

/-! ### The statements -/

/-- Settles O18: below depth 16 the push succeeds, and `execCall_next` says what the next state is. -/
theorem callPushesReturnAddress : Obligations.CallPushesReturnAddress := by
  unfold Obligations.CallPushesReturnAddress
  intro nnn s
  refine ⟨encodeANNN_toNat (by decide) nnn, execCall_of_full nnn, fun hlt => ?_⟩
  obtain ⟨t, hx⟩ := execCall_completes nnn hlt
  obtain ⟨-, hsp, hstack, ht⟩ := execCall_next hx
  have hpc : t.pc.toNat = nnn.toNat := by rw [ht, zext12_toNat]
  exact ⟨t, hx, hsp, hstack, hpc, frame_of_stack_pc ht⟩

/-- Settles O19: above depth 0 the pop succeeds, and `execRet_next` says what the next state is. -/
theorem retPopsReturnAddress : Obligations.RetPopsReturnAddress := by
  unfold Obligations.RetPopsReturnAddress
  intro s
  refine ⟨rfl, execRet_of_empty, fun hpos => ?_⟩
  obtain ⟨t, hx⟩ := execRet_completes hpos
  obtain ⟨-, hsp, hpc, ht⟩ := execRet_next hx
  have hstack : t.stack = s.stack := by rw [ht]
  exact ⟨t, hx, by omega, hpc, fun k => by rw [hstack], frame_of_stack_pc ht⟩

/-- Settles O20: the RET pops the entry that the CALL wrote, at the old depth, and lowers SP to that depth; the entries below
it are as before. -/
theorem retUndoesCall : Obligations.RetUndoesCall := by
  unfold Obligations.RetUndoesCall
  intro nnn s hlt
  obtain ⟨t, hcall⟩ := execCall_completes nnn hlt
  obtain ⟨-, hsp, hstack, ht⟩ := execCall_next hcall
  obtain ⟨u, hret⟩ := execRet_completes (s := t) (by omega)
  obtain ⟨-, husp, hupc, hu⟩ := execRet_next hret
  have hdepth : u.sp = s.sp := Fin.ext (by omega)
  have hback : u.pc = s.pc + 2 := by
    rw [hupc ⟨s.sp.val, hlt⟩ hsp.symm, hstack, if_pos rfl]
  refine ⟨t, u, hcall, hret, sameButDeadStack_iff.mpr ⟨t.stack, ?_, fun k hk => ?_⟩⟩
  · rw [hu, hdepth, hback, ht]
    rfl
  · exact (hstack k).trans (if_neg (Nat.ne_of_lt hk))

/-- Settles O9: the base of SYS is 0. -/
theorem sysRaisesUnknownOpcode : Obligations.SysRaisesUnknownOpcode := by
  unfold Obligations.SysRaisesUnknownOpcode
  intro nnn s
  have hword : (encode (.sys nnn)).toNat = 0 + nnn.toNat := encodeANNN_toNat (by decide) nnn
  exact ⟨by rw [hword, Nat.zero_add], rfl⟩

/-- Settles O17: each target in plain arithmetic, with the frame of a write of PC. -/
theorem jumpsWritePcAlone : Obligations.JumpsWritePcAlone := by
  unfold Obligations.JumpsWritePcAlone
  intro nnn s
  obtain ⟨r, hr, hoffset⟩ := jumpOffset_eq_getV s nnn
  have htarget : (zext12 nnn + zext8 (jumpOffset s nnn)).toNat = nnn.toNat + (s.getV r).toNat := by
    rw [jumpTarget_toNat, hoffset]
  exact
    ⟨⟨encodeANNN_toNat (by decide) nnn, _, rfl, zext12_toNat nnn, onlyRegs_setPc s _⟩,
      ⟨encodeANNN_toNat (by decide) nnn, r, _, hr, rfl, htarget, onlyRegs_setPc s _⟩⟩

/-- Settles O21, skip by skip: each is `skipIf` of its condition. -/
theorem skipsWritePcAlone : Obligations.SkipsWritePcAlone := by
  unfold Obligations.SkipsWritePcAlone
  intro x y nn s
  exact
    ⟨⟨encodeAXNN_toNat (by decide) x nn, exec_skipIf_spec rfl beq_iff_eq⟩,
      ⟨encodeAXNN_toNat (by decide) x nn, exec_skipIf_spec rfl bne_iff_ne⟩,
      ⟨encodeAXY_toNat (by decide) x y, exec_skipIf_spec rfl beq_iff_eq⟩,
      ⟨encodeAXY_toNat (by decide) x y, exec_skipIf_spec rfl bne_iff_ne⟩⟩

end Sys2Proof.Machine

/-! PROOFS of the family 42_memory_ops.md: the frame of a write of I, the errors of a multi-byte access, I after FX55 or FX65,
and what a completing FX55 leaves in memory and a completing FX65 leaves in the registers. -/

namespace Sys2Proof.Machine

/-! ### Writes of I -/

theorem onlyIndex_setI_advance (s : State) (w : Word) : onlyIndex s (s.setI w).advance := by
  simp [onlyIndex, regsSame, memSame, stackSame, dispSame, timersSame, fixedSame, drawsSame]

/-- An instruction that writes `w` to I, read off as the value `n` of `w`. -/
theorem exec_setI_spec {i : Instr} {s : State} {w : Word} {n : Nat} (h : exec i s = .next (s.setI w).advance)
    (hw : w.toNat = n) : ∃ t, exec i s = .next t ∧ t.i.toNat = n ∧ t.pc = s.pc + 2 ∧ onlyIndex s t :=
  ⟨_, h, hw, rfl, onlyIndex_setI_advance s w⟩

theorem execLdF_of_gt {x : RegIdx} {s : State} (h : 0xF < (s.getV x).toNat) :
    execLdF x s = .fault (.invalidOperand (encode (.ldF x))) := by
  rw [execLdF, digitOperand_eq_none_iff.mpr h]
  rfl

theorem execLdF_of_digit {x : RegIdx} {s : State} {d : Fin 16} (h : (s.getV x).toNat = d.val) :
    execLdF x s = .next (s.setI (BitVec.ofNat 16 (s.cfg.fontBase.val + 5 * d.val))).advance := by
  rw [execLdF, digitOperand_eq_some_iff.mpr h]

/-- I after FX55 or FX65 of an access in memory: I + X + 1 does not wrap (R155). -/
theorem afterAccess_i_toNat {s : State} {x : RegIdx} (h : s.i.toNat + x.val ≤ 0xFFF) :
    (afterAccess s x).i.toNat = if s.cfg.quirks.loadStoreIncI = true then s.i.toNat + x.val + 1 else s.i.toNat := by
  have hsum : (s.i + BitVec.ofNat 16 (x.val + 1)).toNat = s.i.toNat + x.val + 1 := by
    rw [BitVec.toNat_add, BitVec.toNat_ofNat]
    omega
  rw [afterAccess_i, apply_ite BitVec.toNat, hsum]

/-! ### The errors of a multi-byte access (R53, R54, R60) -/

theorem checkWrite_eq_none {a : Nat} (hlo : 0x1FF < a) (hhi : a ≤ 0xFFF) : checkWrite a = none := by
  rw [checkWrite, if_neg (by omega), if_neg (by omega)]

/-- A read stops at its first address past 0xFFF. -/
theorem withReads_of_gt {s : State} {a n k : Nat} {f : List Byte → State} (hk : k < n) (hgt : 0xFFF < a + k)
    (hbelow : ∀ j < k, a + j ≤ 0xFFF) : withReads s a n f = .fault (.memoryOutOfBounds (a + k)) := by
  rw [withReads, checkReads_of_gt k hk hgt hbelow]
  rfl

/-- A write that begins above the reserved area stops at its first address past 0xFFF. -/
theorem withWrites_of_gt {s : State} {a k : Nat} {bs : List Byte} {f : State → State} (hk : k < bs.length)
    (ha : 0x1FF < a) (hgt : 0xFFF < a + k) (hbelow : ∀ j < k, a + j ≤ 0xFFF) :
    withWrites s a bs f = .fault (.memoryOutOfBounds (a + k)) := by
  have herror : checkWrite (a + k) = some (.memoryOutOfBounds (a + k)) := if_pos hgt
  have hnone : ∀ j < k, checkWrite (a + j) = none := fun j hj => checkWrite_eq_none (by omega) (hbelow j hj)
  rw [withWrites, checkWrites_of_error k hk herror hnone]
  rfl

/-- A write that begins in the reserved area stops at its first address. -/
theorem withWrites_of_reserved {s : State} {a : Nat} {bs : List Byte} {f : State → State} (hbs : 0 < bs.length)
    (ha : a ≤ 0x1FF) : withWrites s a bs f = .fault (.reservedWrite a) := by
  have herror : checkWrite (a + 0) = some (.reservedWrite a) := by
    rw [Nat.add_zero, checkWrite, if_neg (by omega), if_pos ha]
  rw [withWrites, checkWrites_of_error 0 hbs herror nofun]
  rfl

/-! ### FX55 and FX65 that raise an error -/

/-- X is at most 15, so an FX55 that runs past 0xFFF begins above the reserved area. -/
theorem execLdMemX_of_gt {x : RegIdx} {s : State} {k : Nat} (hk : k ≤ x.val) (hgt : 0xFFF < s.i.toNat + k)
    (hbelow : ∀ j < k, s.i.toNat + j ≤ 0xFFF) : execLdMemX x s = .fault (.memoryOutOfBounds (s.i.toNat + k)) :=
  have hstart : 0x1FF < s.i.toNat := by omega
  withWrites_of_gt (by rw [regsUpTo_length]; omega) hstart hgt hbelow

theorem execLdMemX_of_reserved {x : RegIdx} {s : State} (h : s.i.toNat ≤ 0x1FF) :
    execLdMemX x s = .fault (.reservedWrite s.i.toNat) :=
  withWrites_of_reserved (by rw [regsUpTo_length]; omega) h

theorem execLdXMem_of_gt {x : RegIdx} {s : State} {k : Nat} (hk : k ≤ x.val) (hgt : 0xFFF < s.i.toNat + k)
    (hbelow : ∀ j < k, s.i.toNat + j ≤ 0xFFF) : execLdXMem x s = .fault (.memoryOutOfBounds (s.i.toNat + k)) :=
  withReads_of_gt (Nat.lt_succ_of_le hk) hgt hbelow

/-! ### FX55 and FX65 that complete -/

theorem execLdMemX_completes {x : RegIdx} {s : State} (hlo : 0x1FF < s.i.toNat) (hhi : s.i.toNat + x.val ≤ 0xFFF) :
    ∃ t, execLdMemX x s = .next t := by
  refine ⟨_, withWrites_of_ok ⟨hlo, ?_⟩⟩
  rw [regsUpTo_length, dataAddr]
  omega

theorem execLdXMem_completes {x : RegIdx} {s : State} (h : s.i.toNat + x.val ≤ 0xFFF) :
    ∃ t, execLdXMem x s = .next t := by
  refine ⟨_, withReads_of_ok (.inr ?_)⟩
  rw [dataAddr]
  omega

/-- FX55 touches no byte outside I..I+X (R153). -/
theorem execLdMemX_byte_outside {x : RegIdx} {s t : State} (h : execLdMemX x s = .next t) {a : Nat}
    (ha : a < s.i.toNat ∨ s.i.toNat + x.val < a) : t.byte a = s.byte a := by
  obtain ⟨-, -, rfl⟩ := execLdMemX_next h
  rw [State.advance_byte, afterAccess_byte, State.setBytes_byte_of_not_mem _ _ _ (by rw [regsUpTo_length]; omega)]

/-- FX65 gives V[k] the byte at I + k for k up to X, and leaves the other registers (R154). -/
theorem execLdXMem_getV {x : RegIdx} {s t : State} (h : execLdXMem x s = .next t) (k : RegIdx) :
    t.getV k = if k ≤ x then s.byte (s.i.toNat + k.val) else s.getV k := by
  obtain ⟨-, rfl⟩ := execLdXMem_next h
  have hlen := State.bytes_length s (x.val + 1) s.i.toNat
  rw [State.advance_getV, afterAccess_getV, loadRegs_getV _ _ _ _ (by omega)]
  by_cases hk : k ≤ x
  · have hk' : k.val ≤ x.val := hk
    rw [dif_pos (by omega), if_pos hk, State.bytes_getElem, Nat.sub_zero]
  · have hk' : ¬k.val ≤ x.val := hk
    rw [dif_neg (by omega), if_neg hk]

theorem execLdMemX_i_toNat {x : RegIdx} {s t : State} (h : execLdMemX x s = .next t) :
    t.i.toNat = if s.cfg.quirks.loadStoreIncI = true then s.i.toNat + x.val + 1 else s.i.toNat := by
  obtain ⟨-, hend, rfl⟩ := execLdMemX_next h
  simpa using afterAccess_i_toNat (s := s.setBytes s.i.toNat (regsUpTo s x)) (by simpa using hend)

theorem execLdXMem_i_toNat {x : RegIdx} {s t : State} (h : execLdXMem x s = .next t) :
    t.i.toNat = if s.cfg.quirks.loadStoreIncI = true then s.i.toNat + x.val + 1 else s.i.toNat := by
  obtain ⟨hend, rfl⟩ := execLdXMem_next h
  simpa using afterAccess_i_toNat (s := loadRegs s 0 (s.bytes s.i.toNat (x.val + 1))) (by simpa using hend)

theorem execLdMemX_pc {x : RegIdx} {s t : State} (h : execLdMemX x s = .next t) : t.pc = s.pc + 2 := by
  obtain ⟨-, -, rfl⟩ := execLdMemX_next h
  simp

theorem execLdXMem_pc {x : RegIdx} {s t : State} (h : execLdXMem x s = .next t) : t.pc = s.pc + 2 := by
  obtain ⟨-, rfl⟩ := execLdXMem_next h
  simp

/-- FX55 is no instruction that writes a register, the stack, the display, a timer or the count of draws. -/
theorem onlyIndexMem_of_exec_ldMemX {x : RegIdx} {s t : State} (h : exec (.ldMemX x) s = .next t) :
    onlyIndexMem s t := by
  have he := exec_effect h
  exact ⟨fun r _ => he.getV_eq rfl fun _ => rfl, he.keeps_stack nofun nofun, he.keeps_disp nofun nofun,
    he.keeps_timers nofun nofun, he.keeps_fixed, he.keeps_draws nofun⟩

/-! ### The statements -/

/-- Settles O24: each error is that of the first address whose check fails; an FX55 that completes has its bytes, its I and
its frame by one lemma each. -/
theorem storeRegisters : Obligations.StoreRegisters := by
  unfold Obligations.StoreRegisters
  intro x s
  refine ⟨encodeAX_toNat (by decide) x, fun k hk => execLdMemX_of_gt hk, execLdMemX_of_reserved, fun hlo hhi hwf => ?_⟩
  obtain ⟨t, ht⟩ := execLdMemX_completes hlo hhi
  exact ⟨t, ht, fun k hk => execLdMemX_byte hwf ht hk, fun a ha => execLdMemX_byte_outside ht ha,
    execLdMemX_i_toNat ht, execLdMemX_pc ht, onlyIndexMem_of_exec_ldMemX ht⟩

/-- Settles O25: the frame is what the effect of FX65 leaves. -/
theorem loadRegisters : Obligations.LoadRegisters := by
  unfold Obligations.LoadRegisters
  intro x s
  refine ⟨encodeAX_toNat (by decide) x, fun k hk => execLdXMem_of_gt hk, fun hend => ?_⟩
  obtain ⟨t, ht⟩ := execLdXMem_completes hend
  have he : Effect s (.ldXMem x) t := exec_effect ht
  exact ⟨t, ht, execLdXMem_getV ht, execLdXMem_i_toNat ht, execLdXMem_pc ht, he.keeps_mem nofun nofun,
    he.keeps_stack nofun nofun, he.keeps_disp nofun nofun, he.keeps_timers nofun nofun, he.keeps_fixed,
    he.keeps_draws nofun⟩

/-- Settles O27: the FX55 completed, so its addresses are in memory and the FX65 completes too; each register it loads is the
byte that the FX55 stored. -/
theorem loadRestoresStored : Obligations.LoadRestoresStored := by
  unfold Obligations.LoadRestoresStored
  intro x s t u hwf hstore hmem hcfg hi
  obtain ⟨-, hend, -⟩ := execLdMemX_next hstore
  obtain ⟨w, hw⟩ := execLdXMem_completes (x := x) (s := u) (by rw [hi]; exact hend)
  have hbytes : memSame t u := fun a => by rw [State.byte, hmem, hcfg, State.byte]
  refine ⟨w, hw, fun k hk => ?_⟩
  calc w.getV k = u.byte (u.i.toNat + k.val) := (execLdXMem_getV hw k).trans (if_pos hk)
    _ = t.byte (s.i.toNat + k.val) := by rw [hi, hbytes]
    _ = s.getV k := execLdMemX_byte hwf hstore hk

/-- Settles O22: both are a write of I. -/
theorem indexLoadsAndAdds : Obligations.IndexLoadsAndAdds := by
  unfold Obligations.IndexLoadsAndAdds
  intro nnn x s
  have hsum : (s.i + zext8 (s.getV x)).toNat = (s.i.toNat + (s.getV x).toNat) % 0x10000 := by
    rw [BitVec.toNat_add, zext8_toNat]
  exact
    ⟨⟨encodeANNN_toNat (by decide) nnn, exec_setI_spec rfl (zext12_toNat nnn)⟩,
      ⟨encodeAX_toNat (by decide) x, exec_setI_spec rfl hsum⟩⟩

/-- Settles O23: a glyph's address is below 0x200, so it does not wrap. -/
theorem fontPointerOrInvalidOperand : Obligations.FontPointerOrInvalidOperand := by
  unfold Obligations.FontPointerOrInvalidOperand
  intro x s
  refine ⟨encodeAX_toNat (by decide) x, execLdF_of_gt, fun hdigit => ?_⟩
  have hglyph : (BitVec.ofNat 16 (s.cfg.fontBase.val + 5 * (s.getV x).toNat)).toNat =
      s.cfg.fontBase.val + 5 * (s.getV x).toNat := by
    rw [BitVec.toNat_ofNat]
    omega
  exact exec_setI_spec (execLdF_of_digit (d := ⟨(s.getV x).toNat, by omega⟩) rfl) hglyph

end Sys2Proof.Machine

/-! PROOFS of the family 43_io_keypad.md: what each key instruction answers, by the digit in V[X] or by the lowest pressed key,
and the host's step of a fetched instruction. -/

namespace Sys2Proof.Machine

/-! ### What a key instruction answers -/

theorem execSkp_of_gt {x : RegIdx} {s : State} (h : 0xF < (s.getV x).toNat) :
    execSkp x s = .fault (.invalidOperand (encode (.skp x))) := by
  rw [execSkp, digitOperand_eq_none_iff.mpr h]
  rfl

theorem execSkp_of_digit {x : RegIdx} {s : State} {k : Fin 16} (h : (s.getV x).toNat = k.val) :
    execSkp x s = .next (s.skipIf (s.key k)) := by
  rw [execSkp, digitOperand_eq_some_iff.mpr h]

theorem execSknp_of_gt {x : RegIdx} {s : State} (h : 0xF < (s.getV x).toNat) :
    execSknp x s = .fault (.invalidOperand (encode (.sknp x))) := by
  rw [execSknp, digitOperand_eq_none_iff.mpr h]
  rfl

theorem execSknp_of_digit {x : RegIdx} {s : State} {k : Fin 16} (h : (s.getV x).toNat = k.val) :
    execSknp x s = .next (s.skipIf (!s.key k)) := by
  rw [execSknp, digitOperand_eq_some_iff.mpr h]

theorem execLdXK_of_lowestKey {x : RegIdx} {s : State} {k : Fin 16} (h : lowestKey s = some k) :
    execLdXK x s = .next (s.setV x (BitVec.ofNat 8 k.val)).advance := by
  rw [execLdXK, h]

theorem execLdXK_of_no_key {x : RegIdx} {s : State} (h : lowestKey s = none) : execLdXK x s = .next s := by
  rw [execLdXK, h]

/-! ### A step of a fetched instruction -/

theorem step_of_fetch {s : State} {w : Word} {i : Instr} (hf : fetch s = .ok w) (hd : decodeWord w = .ok i) :
    step s = exec i s := by
  simp only [step, hf, hd]

theorem waiting_of_fetch_ldXK {s : State} {w : Word} {x : RegIdx} (hf : fetch s = .ok w)
    (hd : decodeWord w = .ok (.ldXK x)) : waiting s = (lowestKey s).isNone := by
  simp only [waiting, hf, hd]

/-- The host's step of an FX0A with no key pressed (R221). -/
theorem hostOp_step_of_waiting {s : State} {w : Word} {x : RegIdx} (hf : fetch s = .ok w)
    (hd : decodeWord w = .ok (.ldXK x)) (hnone : lowestKey s = none) : hostOp .step s = .next (s, .waiting) := by
  have hwaiting : waiting s = true := by rw [waiting_of_fetch_ldXK hf hd, hnone, Option.isNone_none]
  have hstep : step s = .next s := (step_of_fetch hf hd).trans (execLdXK_of_no_key hnone)
  rw [hostOp, if_pos hwaiting, hstep, withReply]

/-! ### The statements -/

/-- Settles O30: the lowest pressed key, a number below 256, is what V[X] takes; with no key pressed the word fetched decodes
to this FX0A, which waits. -/
theorem keyWaitTakesLowestOrWaits : Obligations.KeyWaitTakesLowestOrWaits := by
  unfold Obligations.KeyWaitTakesLowestOrWaits
  intro x s
  refine ⟨encodeAX_toNat (by decide) x, fun k hk hlower => ?_, fun hreleased => ?_⟩
  · have hbyte : (BitVec.ofNat 8 k.val).toNat = k.val := by
      rw [BitVec.toNat_ofNat]
      omega
    exact exec_setV_spec (execLdXK_of_lowestKey (lowestKey_eq_some_iff.mpr ⟨hk, hlower⟩)) hbyte
  · have hnone : lowestKey s = none := lowestKey_eq_none_iff.mpr hreleased
    exact ⟨execLdXK_of_no_key hnone, fun hf => hostOp_step_of_waiting hf (encodeThenDecode (.ldXK x) rfl) hnone⟩

/-- Settles O29: above 15 there is no key to read; a digit makes each a skip on its key. -/
theorem keySkips : Obligations.KeySkips := by
  unfold Obligations.KeySkips
  intro x s
  refine ⟨encodeAX_toNat (by decide) x, encodeAX_toNat (by decide) x,
    fun hgt => ⟨execSkp_of_gt hgt, execSknp_of_gt hgt⟩, fun k hk => ⟨?_, ?_⟩⟩
  · exact exec_skipIf_spec (execSkp_of_digit hk) Iff.rfl
  · exact exec_skipIf_spec (execSknp_of_digit hk) (Bool.not_eq_true' _).to_iff

end Sys2Proof.Machine

/-! PROOFS of the family 44_display.md: drawing a sprite toggles one by one the pixels that its set bits land on, and these are
distinct; so each covered pixel is toggled once, and a collision is a covered pixel that was set. -/

namespace Sys2Proof.Machine

/-! ### The pixels that a sprite's set bits land on (R181) -/

/-- The pixels of the set bits at the columns `c`, `c + 1`, ... of one sprite row (`n` of them), as `drawBits` visits them. -/
def rowPixels (row : Byte) (x0 : Nat) (yr : Fin 32) (c n : Nat) : List (Fin 64 × Fin 32) :=
  ((List.range' c n).filter fun k => row.getLsbD (7 - k)).map fun k => (column (x0 + k), yr)

/-- The pixels of the set bits of the rows from row number `yr` on, as `drawRows` visits them. -/
def spritePixels (clipV : Bool) (x0 : Nat) : Nat → List Byte → List (Fin 64 × Fin 32)
  | _, [] => []
  | yr, row :: rest =>
    (if 32 ≤ yr ∧ clipV = true then [] else rowPixels row x0 (rowOf yr) 0 8) ++ spritePixels clipV x0 (yr + 1) rest

theorem mem_rowPixels {row : Byte} {x0 c n : Nat} {yr : Fin 32} {p : Fin 64 × Fin 32} :
    p ∈ rowPixels row x0 yr c n ↔
      ∃ k, (c ≤ k ∧ k < c + n) ∧ row.getLsbD (7 - k) = true ∧ p = (column (x0 + k), yr) := by
  simp only [rowPixels, List.mem_map, List.mem_filter, List.mem_range'_1, and_assoc, eq_comm]

theorem mem_spritePixels {clipV : Bool} {x0 : Nat} {p : Fin 64 × Fin 32} :
    ∀ {rows : List Byte} {yr : Nat}, p ∈ spritePixels clipV x0 yr rows ↔
      ∃ r, ∃ h : r < rows.length, ¬(32 ≤ yr + r ∧ clipV = true) ∧ p ∈ rowPixels rows[r] x0 (rowOf (yr + r)) 0 8
  | [], _ => by simp [spritePixels]
  | row :: rest, yr => by
    rw [spritePixels, List.mem_append, List.mem_ite_nil_left, mem_spritePixels (rows := rest)]
    constructor
    · rintro (h | ⟨r, hr, h⟩)
      · exact ⟨0, Nat.succ_pos _, h⟩
      · exact ⟨r + 1, Nat.succ_lt_succ hr, by simpa [Nat.add_assoc, Nat.add_comm 1] using h⟩
    · rintro ⟨_ | r, hr, h⟩
      · exact .inl h
      · exact .inr ⟨r, Nat.lt_of_succ_lt_succ hr, by simpa [Nat.add_assoc, Nat.add_comm 1] using h⟩

/-- Eight columns in a row are distinct modulo 64. -/
theorem nodup_rowPixels (row : Byte) (x0 : Nat) (yr : Fin 32) : (rowPixels row x0 yr 0 8).Nodup := by
  refine List.Nodup.map_on (fun j hj k hk hjk => ?_) (List.Nodup.filter _ List.nodup_range')
  have hcolumn : (x0 + j) % 64 = (x0 + k) % 64 := congrArg Fin.val (congrArg Prod.fst hjk)
  have hj' := List.mem_range'_1.mp (List.mem_of_mem_filter hj)
  have hk' := List.mem_range'_1.mp (List.mem_of_mem_filter hk)
  omega

/-- Up to 32 rows are distinct modulo 32, so that no two bits of a sprite land on one pixel. -/
theorem nodup_spritePixels (clipV : Bool) (x0 : Nat) :
    ∀ (rows : List Byte) (yr : Nat), rows.length ≤ 32 → (spritePixels clipV x0 yr rows).Nodup
  | [], _, _ => List.nodup_nil
  | row :: rest, yr, hlen => by
    rw [List.length_cons] at hlen
    refine List.Nodup.append ?_ (nodup_spritePixels clipV x0 rest (yr + 1) (by omega)) ?_
    · split
      · exact List.nodup_nil
      · exact nodup_rowPixels row x0 (rowOf yr)
    · intro p hfirst hrest
      obtain ⟨-, hrow⟩ := List.mem_ite_nil_left.mp hfirst
      obtain ⟨_, -, -, rfl⟩ := mem_rowPixels.mp hrow
      obtain ⟨r, hr, -, hlater⟩ := mem_spritePixels.mp hrest
      obtain ⟨_, -, -, heq⟩ := mem_rowPixels.mp hlater
      have hmod : yr % 32 = (yr + 1 + r) % 32 := congrArg Fin.val (congrArg Prod.snd heq)
      omega

/-! ### Drawing toggles pixel after pixel -/

/-- Toggles one pixel, and records a hit when it was set: `drawPixel` for a set bit. -/
def togglePixel (dh : Display × Bool) (p : Fin 64 × Fin 32) : Display × Bool := drawPixel true p.1 p.2 dh.1 dh.2

theorem togglePixel_pixel (dh : Display × Bool) (p q : Fin 64 × Fin 32) :
    Display.pixel (togglePixel dh p).1 q.1 q.2 = Bool.xor (Display.pixel dh.1 q.1 q.2) (decide (q = p)) := by
  rw [togglePixel, drawPixel_pixel, Bool.true_and]
  simp only [Prod.ext_iff]

theorem togglePixel_hit (dh : Display × Bool) (p : Fin 64 × Fin 32) :
    (togglePixel dh p).2 = (dh.2 || Display.pixel dh.1 p.1 p.2) := by
  rw [togglePixel, drawPixel_hit, Bool.true_and]

theorem drawBits_eq_foldl (row : Byte) (x0 : Nat) (yr : Fin 32) : ∀ (n c : Nat) (d : Display) (hit : Bool),
    drawBits row x0 yr c n d hit = (rowPixels row x0 yr c n).foldl togglePixel (d, hit)
  | 0, _, _, _ => rfl
  | n + 1, c, d, hit => by
    rw [drawBits, drawBits_eq_foldl, rowPixels, rowPixels, List.range'_succ, List.filter_cons]
    cases row.getLsbD (7 - c) <;> rfl

theorem drawRows_eq_foldl (clipV : Bool) (x0 : Nat) : ∀ (rows : List Byte) (yr : Nat) (d : Display) (hit : Bool),
    drawRows clipV x0 yr rows d hit = (spritePixels clipV x0 yr rows).foldl togglePixel (d, hit)
  | [], _, _, _ => rfl
  | row :: rest, yr, d, hit => by
    rw [drawRows, spritePixels, List.foldl_append]
    split
    · exact drawRows_eq_foldl clipV x0 rest (yr + 1) d hit
    · rw [drawRows_eq_foldl, drawBits_eq_foldl]

/-- Distinct pixels are each toggled once. -/
theorem foldl_togglePixel_pixel : ∀ {ps : List (Fin 64 × Fin 32)}, ps.Nodup → ∀ (dh : Display × Bool)
    (q : Fin 64 × Fin 32),
    Display.pixel (ps.foldl togglePixel dh).1 q.1 q.2 = Bool.xor (Display.pixel dh.1 q.1 q.2) (decide (q ∈ ps))
  | [], _, _, _ => by simp
  | p :: ps, hnd, dh, q => by
    obtain ⟨hp, hps⟩ := List.nodup_cons.mp hnd
    rw [List.foldl_cons, foldl_togglePixel_pixel hps, togglePixel_pixel, Bool.xor_assoc]
    by_cases hq : q = p
    · simp [hq, hp]
    · simp [hq]

/-- Of distinct pixels each is looked at before it is toggled, so the hits are those that were set at the start. -/
theorem foldl_togglePixel_hit : ∀ {ps : List (Fin 64 × Fin 32)}, ps.Nodup → ∀ dh : Display × Bool,
    (ps.foldl togglePixel dh).2 = true ↔ dh.2 = true ∨ ∃ p ∈ ps, Display.pixel dh.1 p.1 p.2 = true
  | [], _, _ => by simp
  | p :: ps, hnd, dh => by
    obtain ⟨hp, hps⟩ := List.nodup_cons.mp hnd
    have hrest : ∀ q ∈ ps, Display.pixel (togglePixel dh p).1 q.1 q.2 = Display.pixel dh.1 q.1 q.2 := fun q hq => by
      rw [togglePixel_pixel, decide_eq_false (ne_of_mem_of_not_mem hq hp), Bool.xor_false]
    rw [List.foldl_cons, foldl_togglePixel_hit hps, togglePixel_hit, Bool.or_eq_true, or_assoc, List.exists_mem_cons_iff]
    exact or_congr_right (or_congr_right (exists_congr fun q => and_congr_right fun hq => by rw [hrest q hq]))

/-! ### DXYN -/

/-- The pixels that the sprite of `DRW Vx, Vy, n` covers in state `s`. -/
def drwPixels (s : State) (x y : RegIdx) (n : Nibble) : List (Fin 64 × Fin 32) :=
  spritePixels s.cfg.quirks.clipV ((s.getV x).toNat % 64) ((s.getV y).toNat % 32) (s.bytes s.i.toNat n.toNat)

/-- The row of the screen on which row number `yr` is drawn: past the bottom edge it is skipped under `Q_CLIP_V` and wraps
otherwise. -/
theorem drawnRow_iff {clipV : Bool} {yr : Nat} {cy : Fin 32} :
    ¬(32 ≤ yr ∧ clipV = true) ∧ cy = rowOf yr ↔
      (yr < 32 ∧ cy.val = yr) ∨ (32 ≤ yr ∧ clipV = false ∧ cy.val = yr % 32) := by
  rw [Fin.ext_iff, rowOf]
  cases clipV
  · simp only [Bool.false_eq_true, and_false, not_false_eq_true, true_and]
    omega
  · simp only [and_true, Bool.true_eq_false, false_and, and_false, or_false]
    omega

theorem mem_drwPixels {s : State} {x y : RegIdx} {n : Nibble} {cx : Fin 64} {cy : Fin 32} :
    (cx, cy) ∈ drwPixels s x y n ↔ spriteCovers s x y n cx cy := by
  simp only [drwPixels, mem_spritePixels, mem_rowPixels, State.bytes_length, State.bytes_getElem, Prod.mk.injEq,
    spriteCovers, ← drawnRow_iff]
  constructor
  · rintro ⟨r, hr, hdrawn, c, ⟨-, hc⟩, hbit, hx, hy⟩
    exact ⟨r, c, hr, by omega, hbit, congrArg Fin.val hx, hdrawn, hy⟩
  · rintro ⟨r, c, hr, hc, hbit, hx, hdrawn, hy⟩
    exact ⟨r, hr, hdrawn, c, ⟨Nat.zero_le c, by omega⟩, hbit, Fin.ext hx, hy⟩

/-- A sprite has at most 15 rows. -/
theorem nodup_drwPixels (s : State) (x y : RegIdx) (n : Nibble) : (drwPixels s x y n).Nodup :=
  nodup_spritePixels _ _ _ _ (by rw [State.bytes_length]; omega)

theorem flagByte_eq_one_iff {c : Bool} : flagByte c = 1 ↔ c = true := by
  cases c <;> decide

section Draw

variable {x y : RegIdx} {n : Nibble} {s t : State}

theorem execDrw_pixel (h : execDrw x y n s = .next t) (cx : Fin 64) (cy : Fin 32) :
    t.pixel cx cy = Bool.xor (s.pixel cx cy) (decide ((cx, cy) ∈ drwPixels s x y n)) := by
  obtain ⟨-, rfl⟩ := execDrw_next h
  rw [State.advance_pixel, State.setV_pixel, State.setDisp_pixel, drawSprite, drawRows_eq_foldl]
  exact foldl_togglePixel_pixel (nodup_drwPixels s x y n) (s.disp, false) (cx, cy)

theorem execDrw_pixel_of_covers (h : execDrw x y n s = .next t) {cx : Fin 64} {cy : Fin 32}
    (hc : spriteCovers s x y n cx cy) : t.pixel cx cy = !s.pixel cx cy := by
  rw [execDrw_pixel h, decide_eq_true (mem_drwPixels.mpr hc), Bool.xor_true]

theorem execDrw_pixel_of_not_covers (h : execDrw x y n s = .next t) {cx : Fin 64} {cy : Fin 32}
    (hc : ¬spriteCovers s x y n cx cy) : t.pixel cx cy = s.pixel cx cy := by
  rw [execDrw_pixel h, decide_eq_false (mt mem_drwPixels.mp hc), Bool.xor_false]

/-- VF after DXYN is 1 exactly on a collision (R182). -/
theorem execDrw_flag_eq_one_iff (h : execDrw x y n s = .next t) :
    t.getV 15 = 1 ↔ ∃ cx cy, spriteCovers s x y n cx cy ∧ s.pixel cx cy = true := by
  obtain ⟨-, rfl⟩ := execDrw_next h
  rw [State.advance_getV, show (15 : RegIdx) = regF from rfl, State.setV_getV_self, flagByte_eq_one_iff, drawSprite,
    drawRows_eq_foldl]
  refine (foldl_togglePixel_hit (nodup_drwPixels s x y n) (s.disp, false)).trans ?_
  simp only [Bool.false_eq_true, false_or, Prod.exists, mem_drwPixels, State.pixel]

theorem execDrw_flag_eq_zero (h : execDrw x y n s = .next t)
    (hc : ¬∃ cx cy, spriteCovers s x y n cx cy ∧ s.pixel cx cy = true) : t.getV 15 = 0 :=
  (Effect.flag (exec_effect (i := .drw x y n) h) rfl).resolve_right (mt (execDrw_flag_eq_one_iff h).mp hc)

theorem execDrw_completes (h : ∀ r < n.toNat, s.i.toNat + r ≤ 0xFFF) : ∃ t, execDrw x y n s = .next t := by
  refine ⟨_, withReads_of_ok ?_⟩
  rcases Nat.eq_zero_or_pos n.toNat with h0 | hpos
  · exact .inl h0
  · have := h (n.toNat - 1) (by omega)
    exact .inr (by rw [dataAddr]; omega)

theorem execDrw_of_gt {r : Nat} (hr : r < n.toNat) (hgt : 0xFFF < s.i.toNat + r)
    (hbelow : ∀ j < r, s.i.toNat + j ≤ 0xFFF) :
    execDrw x y n s = .fault (.memoryOutOfBounds (s.i.toNat + r)) :=
  withReads_of_gt hr hgt hbelow

/-- What a DXYN that completes leaves: all but the display, VF and PC. -/
theorem execDrw_frame (h : execDrw x y n s = .next t) :
    regsSame [15] s t ∧ t.i = s.i ∧ memSame s t ∧ stackSame s t ∧ timersSame s t ∧ fixedSame s t ∧ drawsSame s t := by
  have he : Effect s (.drw x y n) t := exec_effect h
  exact ⟨fun r hr => he.getV_eq rfl fun h15 => absurd h15 (List.mem_singleton.not.mp hr),
    he.i_eq nofun nofun nofun fun _ => ⟨nofun, nofun⟩, he.keeps_mem nofun nofun, he.keeps_stack nofun nofun,
    he.keeps_timers nofun nofun, he.keeps_fixed, he.keeps_draws nofun⟩

theorem execDrw_pc (h : execDrw x y n s = .next t) : t.pc = s.pc + 2 := by
  obtain ⟨-, rfl⟩ := execDrw_next h
  simp

/-- The first of two equal draws leaves what the second reads of the sprite, unless X or Y is F. -/
theorem spriteCovers_after_execDrw (h : execDrw x y n s = .next t) (hx : x ≠ 15) (hy : y ≠ 15) {cx : Fin 64}
    {cy : Fin 32} : spriteCovers t x y n cx cy ↔ spriteCovers s x y n cx cy := by
  obtain ⟨hregs, hi, hmem, -, -, ⟨-, hcfg⟩, -⟩ := execDrw_frame h
  rw [spriteCovers, spriteCovers, hregs x (List.mem_singleton.not.mpr hx), hregs y (List.mem_singleton.not.mpr hy), hi,
    hcfg]
  simp only [hmem _]

theorem execDrw_completes_again (h : execDrw x y n s = .next t) : ∃ u, execDrw x y n t = .next u := by
  obtain ⟨hrange, -⟩ := execDrw_next h
  obtain ⟨-, hi, -⟩ := execDrw_frame h
  exact execDrw_completes fun r hr => by rw [hi]; omega

end Draw

/-! ### The statements -/

/-- Settles O33: a read out of range stops it; otherwise every covered pixel is toggled once, and VF tells a collision. -/
theorem drawTogglesCoveredPixels : Obligations.DrawTogglesCoveredPixels := by
  unfold Obligations.DrawTogglesCoveredPixels
  intro x y n s
  refine ⟨encodeAXYN_toNat (by decide) x y n, fun r hr => execDrw_of_gt hr, fun hrange => ?_⟩
  obtain ⟨t, ht⟩ := execDrw_completes hrange
  exact ⟨t, ht, fun _ _ => execDrw_pixel_of_covers ht, fun _ _ => execDrw_pixel_of_not_covers ht,
    (execDrw_flag_eq_one_iff ht).mpr, execDrw_flag_eq_zero ht, execDrw_pc ht, execDrw_frame ht⟩

/-- Settles O34: both draws cover the same pixels. Each is toggled twice, and the second draw finds the covered pixels
inverted. -/
theorem drawTwiceRestores : Obligations.DrawTwiceRestores := by
  unfold Obligations.DrawTwiceRestores
  intro x y n s t hx hy (ht : execDrw x y n s = .next t)
  obtain ⟨u, hu⟩ := execDrw_completes_again ht
  have hsame : ∀ {cx cy}, spriteCovers t x y n cx cy ↔ spriteCovers s x y n cx cy :=
    spriteCovers_after_execDrw ht hx hy
  refine ⟨u, hu, fun cx cy => ?_, fun hclear => ?_, fun hempty => ⟨?_, ?_⟩⟩
  · by_cases hc : spriteCovers s x y n cx cy
    · rw [execDrw_pixel_of_covers hu (hsame.mpr hc), execDrw_pixel_of_covers ht hc, Bool.not_not]
    · rw [execDrw_pixel_of_not_covers hu (mt hsame.mp hc), execDrw_pixel_of_not_covers ht hc]
  · have hset : ∀ {cx cy}, spriteCovers s x y n cx cy → t.pixel cx cy = true := fun hc => by
      rw [execDrw_pixel_of_covers ht hc, hclear _ _ hc, Bool.not_false]
    rw [execDrw_flag_eq_one_iff hu]
    exact exists_congr fun cx => exists_congr fun cy =>
      ⟨fun ⟨hc, _⟩ => hsame.mp hc, fun hc => ⟨hsame.mpr hc, hset hc⟩⟩
  · exact execDrw_flag_eq_zero ht fun ⟨cx, cy, hc, _⟩ => hempty cx cy hc
  · exact execDrw_flag_eq_zero hu fun ⟨cx, cy, hc, _⟩ => hempty cx cy (hsame.mp hc)

/-- Settles O32: the next state is the blank display, with PC advanced. -/
theorem clsClearsEveryPixel : Obligations.ClsClearsEveryPixel := by
  unfold Obligations.ClsClearsEveryPixel
  intro s
  have hx : exec .cls s = .next (s.setDisp Display.blank).advance := rfl
  have he : Effect s .cls (s.setDisp Display.blank).advance := exec_effect hx
  exact ⟨rfl, _, hx, Display.pixel_blank, rfl, fun _ _ => he.getV_eq rfl fun _ => rfl, rfl, he.keeps_mem nofun nofun,
    he.keeps_stack nofun nofun, he.keeps_timers nofun nofun, he.keeps_fixed, he.keeps_draws nofun⟩

end Sys2Proof.Machine

/-! PROOFS of the family 45_bcd.md: the digits of a byte in plain arithmetic, what stops an FX33, and what one that completes
leaves in memory and everywhere else. -/

namespace Sys2Proof.Machine

/-! ### The decimal digits of a byte (R190) -/

@[simp] theorem bcdDigits_length (b : Byte) : (bcdDigits b).length = 3 := rfl

/-- Each digit fits a byte, so it is stored as it is. -/
theorem bcdDigits_toNat (b : Byte) :
    (bcdDigits b)[0].toNat = b.toNat / 100 ∧ (bcdDigits b)[1].toNat = b.toNat / 10 % 10 ∧
      (bcdDigits b)[2].toNat = b.toNat % 10 := by
  have hfits : ∀ {d : Nat}, d < 256 → (BitVec.ofNat 8 d).toNat = d := fun h =>
    (BitVec.toNat_ofNat _ _).trans (Nat.mod_eq_of_lt h)
  exact ⟨hfits (by omega), hfits (by omega), hfits (by omega)⟩

/-! ### FX33 that raises an error -/

section DecimalStore

variable {x : RegIdx} {s t : State}

/-- The store is three bytes long, so one that runs past 0xFFF begins above the reserved area. -/
theorem execLdB_of_gt {k : Nat} (hk : k ≤ 2) (hgt : 0xFFF < s.i.toNat + k) (hbelow : ∀ j < k, s.i.toNat + j ≤ 0xFFF) :
    execLdB x s = .fault (.memoryOutOfBounds (s.i.toNat + k)) :=
  have hstart : 0x1FF < s.i.toNat := by omega
  withWrites_of_gt (Nat.lt_succ_of_le hk) hstart hgt hbelow

theorem execLdB_of_reserved (h : s.i.toNat ≤ 0x1FF) : execLdB x s = .fault (.reservedWrite s.i.toNat) :=
  withWrites_of_reserved (Nat.succ_pos 2) h

/-! ### FX33 that completes -/

theorem execLdB_completes (hlo : 0x1FF < s.i.toNat) (hhi : s.i.toNat + 2 ≤ 0xFFF) : ∃ t, execLdB x s = .next t :=
  ⟨_, withWrites_of_ok ⟨hlo, Nat.succ_le_succ hhi⟩⟩

/-- After FX33 the byte at I + k is digit k of V[X], here read off as its value `n`. -/
theorem execLdB_digit (hwf : Memory.wf s.cfg.fontBase.val s.mem = true) (h : execLdB x s = .next t) {k n : Nat}
    {hk : k < (bcdDigits (s.getV x)).length} (hn : (bcdDigits (s.getV x))[k].toNat = n) :
    (t.byte (s.i.toNat + k)).toNat = n := by
  obtain ⟨-, hend, rfl⟩ := execLdB_next h
  rw [State.advance_byte, State.setBytes_byte _ _ _ hk hwf (Nat.succ_le_succ hend), hn]

/-- FX33 touches no byte outside I..I+2. -/
theorem execLdB_byte_outside (h : execLdB x s = .next t) {a : Nat} (ha : a < s.i.toNat ∨ s.i.toNat + 2 < a) :
    t.byte a = s.byte a := by
  obtain ⟨-, -, rfl⟩ := execLdB_next h
  rw [State.advance_byte, State.setBytes_byte_of_not_mem _ _ _ ha]

/-- I is as before, whatever `Q_LOADSTORE_INC_I` says (R190). -/
theorem execLdB_i (h : execLdB x s = .next t) : t.i = s.i := by
  obtain ⟨-, -, rfl⟩ := execLdB_next h
  simp

theorem execLdB_pc (h : execLdB x s = .next t) : t.pc = s.pc + 2 := by
  obtain ⟨-, -, rfl⟩ := execLdB_next h
  simp

/-- FX33 is no instruction that writes a register, the stack, the display, a timer or the count of draws. -/
theorem onlyIndexMem_of_exec_ldB (h : exec (.ldB x) s = .next t) : onlyIndexMem s t := by
  have he := exec_effect h
  exact ⟨fun r _ => he.getV_eq rfl fun _ => rfl, he.keeps_stack nofun nofun, he.keeps_disp nofun nofun,
    he.keeps_timers nofun nofun, he.keeps_fixed, he.keeps_draws nofun⟩

end DecimalStore

/-! ### The statement -/

/-- Settles O26: each error is that of the first address whose check fails; an FX33 that completes has its three digits, its I
and its frame by one lemma each. -/
theorem decimalDigitsStored : Obligations.DecimalDigitsStored := by
  unfold Obligations.DecimalDigitsStored
  intro x s
  refine ⟨encodeAX_toNat (by decide) x, fun k hk => execLdB_of_gt hk, execLdB_of_reserved, fun hlo hhi hwf => ?_⟩
  obtain ⟨t, ht⟩ := execLdB_completes (x := x) hlo hhi
  obtain ⟨hhundreds, htens, hones⟩ := bcdDigits_toNat (s.getV x)
  exact ⟨t, ht, execLdB_digit hwf ht (k := 0) hhundreds, execLdB_digit hwf ht htens, execLdB_digit hwf ht hones,
    fun a ha => execLdB_byte_outside ht ha, execLdB_i ht, execLdB_pc ht, onlyIndexMem_of_exec_ldB ht⟩

end Sys2Proof.Machine

/-! PROOFS of the family 46_random.md: CXNN writes one register from its draw, and the draw it takes is the next free byte. -/

namespace Sys2Proof.Machine

/-- RND with a given draw, whatever it is: the masked draw in V[X], PC advanced, and the frame of a write of V[X]. -/
theorem rndWith_spec (r : Byte) (x : RegIdx) (nn : Byte) (u : State) :
    (rndWith r x nn u).getV x = r &&& nn ∧ (rndWith r x nn u).pc = u.pc + 2 ∧ onlyRegs [x] u (rndWith r x nn u) :=
  ⟨by simp [rndWith], rfl, onlyRegs_setV_advance u x (r &&& nn)⟩

/-- CXNN completes on every state, with the free byte at the counter as its draw and the counter one higher. -/
theorem exec_rnd (x : RegIdx) (nn : Byte) (s : State) :
    exec (.rnd x nn) s = .next (rndWith (Config.freeByte s.draws) x nn { s with draws := s.draws + 1 }) := by
  have hdispatch : exec (.rnd x nn) s = execRnd x nn s := rfl
  rw [hdispatch, execRnd, State.draw_fst, State.draw_snd]

/-- Settles O35: the effect is that of any draw, and the draw taken is the next free byte. -/
theorem rndMasksFreshDraw : Obligations.RndMasksFreshDraw := by
  unfold Obligations.RndMasksFreshDraw
  intro x nn s
  exact ⟨encodeAXNN_toNat (by decide) x nn, fun r u => rndWith_spec r x nn u, exec_rnd x nn s⟩

end Sys2Proof.Machine

/-! PROOFS of the family 47_timers.md: FX07 writes one register from DT; FX15 and FX18 write one timer and share a frame. -/

namespace Sys2Proof.Machine

/-- Everything but PC and the timers is unchanged. -/
def onlyTimers (s t : State) : Prop :=
  regsSame [] s t ∧ t.i = s.i ∧ memSame s t ∧ stackSame s t ∧ dispSame s t ∧ fixedSame s t ∧ drawsSame s t

theorem onlyTimers_setDt_advance (s : State) (b : Byte) : onlyTimers s (s.setDt b).advance := by
  simp [onlyTimers, regsSame, memSame, stackSame, dispSame, fixedSame, drawsSame]

theorem onlyTimers_setSt_advance (s : State) (b : Byte) : onlyTimers s (s.setSt b).advance := by
  simp [onlyTimers, regsSame, memSame, stackSame, dispSame, fixedSame, drawsSame]

/-- Settles O36, form by form: the next state is the write of one register or of one timer, with PC advanced. -/
theorem timerInstructions : Obligations.TimerInstructions := by
  unfold Obligations.TimerInstructions
  intro x s
  have hld : exec (.ldXDt x) s = .next (s.setV x s.dt).advance := rfl
  have hdt : exec (.ldDtX x) s = .next (s.setDt (s.getV x)).advance := rfl
  have hst : exec (.ldStX x) s = .next (s.setSt (s.getV x)).advance := rfl
  exact
    ⟨⟨encodeAX_toNat (by decide) x, _, hld, by simp, rfl, onlyRegs_setV_advance s x s.dt⟩,
      ⟨encodeAX_toNat (by decide) x, _, hdt, rfl, rfl, rfl, onlyTimers_setDt_advance s (s.getV x)⟩,
      ⟨encodeAX_toNat (by decide) x, _, hst, rfl, rfl, rfl, onlyTimers_setSt_advance s (s.getV x)⟩⟩

end Sys2Proof.Machine

/-! PROOFS of the family 60_exceptions.md: how a step can end, the host operations one by one, and runs of them. -/

namespace Sys2Proof.Machine

/-! ### A step: fetch, decode, execute (R245) -/

theorem fetch_eq_wordOfBytes {s : State} (heven : s.pc.toNat % 2 = 0) (hpc : s.pc.toNat + 1 ≤ 0xFFF) :
    fetch s = .ok (wordOfBytes (s.byte s.pc.toNat) (s.byte (s.pc.toNat + 1))) := by
  rw [fetch, if_pos (fetchable_iff.mpr ⟨heven, hpc⟩)]

/-- Two bytes decode to what their word decodes to. -/
theorem decodeWord_of_decodeBytes {hi lo : Byte} {i : Instr} {rest : List Byte}
    (h : decodeBytes [hi, lo] = .ok (i, rest)) : decodeWord (wordOfBytes hi lo) = .ok i := by
  simp only [decodeBytes] at h
  split at h
  case h_1 hd =>
    cases h
    exact hd
  case h_2 => cases h

/-- Settles O6: the word fetched is the word of those two bytes. -/
theorem stepRunsDecodedInstr : Obligations.StepRunsDecodedInstr := by
  unfold Obligations.StepRunsDecodedInstr
  intro s i heven hpc hd
  exact step_of_fetch (fetch_eq_wordOfBytes heven hpc) (decodeWord_of_decodeBytes hd)

/-- A word that the decoder refuses ends the step (R223). -/
theorem step_of_decode_error {s : State} {w : Word} {e : DecodeError} (hf : fetch s = .ok w)
    (hd : decodeWord w = .error e) : step s = .fault (.unknownOpcode w) := by
  simp only [step, hf, hd, raise]

/-- A SYS word ends the step with the whole word (R139): it is the only word of its instruction. -/
theorem step_of_decode_sys {s : State} {w : Word} {nnn : Addr12} (hf : fetch s = .ok w)
    (hd : decodeWord w = .ok (.sys nnn)) : step s = .fault (.unknownOpcode w) := by
  obtain ⟨hword, -⟩ := decodeThenEncode w (.sys nnn) hd
  obtain ⟨-, hsys⟩ := sysRaisesUnknownOpcode nnn s
  rw [step_of_fetch hf hd, hsys, hword]

/-- Settles O7: the decoder refuses an illegal word or gives SYS for it, and both end the step with that word. -/
theorem illegalWordStepsToUnknownOpcode : Obligations.IllegalWordStepsToUnknownOpcode := by
  unfold Obligations.IllegalWordStepsToUnknownOpcode
  intro s w hf hw
  obtain hd | ⟨nnn, hd⟩ := (illegalWordsAreTheListed w).mp hw
  · exact step_of_decode_error hf hd
  · exact step_of_decode_sys hf hd

/-! ### How a step can end (R220, R221) -/

/-- The ends of R221: a next state, or one error of the codes 2 to 8. -/
def StepOutcome (o : Host.Outcome State Fault Refusal) : Prop :=
  (∃ t, o = .next t) ∨ ∃ e, o = .fault e ∧ 2 ≤ e.code ∧ e.code ≤ 8

theorem StepOutcome.next (t : State) : StepOutcome (.next t) := .inl ⟨t, rfl⟩

/-- Of the errors only RomTooLarge, code 1, is not a step's. -/
theorem StepOutcome.raise {e : Fault} (h : ∀ n, e ≠ .romTooLarge n) : StepOutcome (raise e) := by
  refine .inr ⟨e, rfl, ?_⟩
  cases e with
  | romTooLarge n => exact absurd rfl (h n)
  | _ => simp [Fault.code]

theorem checkReads_ne_romTooLarge : ∀ {n a : Nat} {e : Fault}, checkReads a n = some e → ∀ k, e ≠ .romTooLarge k
  | n + 1, a, e, h => by
    unfold checkReads checkRead at h
    split_ifs at h
    · cases h
      nofun
    · exact checkReads_ne_romTooLarge h

theorem checkWrites_ne_romTooLarge : ∀ {n a : Nat} {e : Fault}, checkWrites a n = some e → ∀ k, e ≠ .romTooLarge k
  | n + 1, a, e, h => by
    unfold checkWrites checkWrite at h
    split_ifs at h
    · cases h
      nofun
    · cases h
      nofun
    · exact checkWrites_ne_romTooLarge h

theorem stepOutcome_withReads (s : State) (a n : Nat) (f : List Byte → State) : StepOutcome (withReads s a n f) := by
  unfold withReads
  cases hc : checkReads a n with
  | none => exact .next _
  | some e => exact .raise (checkReads_ne_romTooLarge hc)

theorem stepOutcome_withWrites (s : State) (a : Nat) (bs : List Byte) (f : State → State) :
    StepOutcome (withWrites s a bs f) := by
  unfold withWrites
  cases hc : checkWrites a bs.length with
  | none => exact .next _
  | some e => exact .raise (checkWrites_ne_romTooLarge hc)

/-- Every instruction ends as a step may: no arm is refused, and none raises RomTooLarge. -/
theorem stepOutcome_exec (i : Instr) (s : State) : StepOutcome (exec i s) := by
  cases i with
  | sys => exact .raise nofun
  | ret =>
    simp only [exec, execRet]
    cases s.pop with
    | none => exact .raise nofun
    | some => exact .next _
  | call =>
    simp only [exec, execCall]
    cases s.push (s.pc + 2) with
    | none => exact .raise nofun
    | some => exact .next _
  | ldF x | skp x | sknp x =>
    simp only [exec, execLdF, execSkp, execSknp]
    cases digitOperand s x with
    | none => exact .raise nofun
    | some => exact .next _
  | ldXK =>
    simp only [exec, execLdXK]
    cases lowestKey s with
    | none => exact .next _
    | some => exact .next _
  | drw | ldXMem =>
    simp only [exec, execDrw, execLdXMem]
    exact stepOutcome_withReads s _ _ _
  | ldB | ldMemX =>
    simp only [exec, execLdB, execLdMemX]
    exact stepOutcome_withWrites s _ _ _
  | _ => exact .next _

/-- Settles O8: a failed fetch and a refused word have codes of their own, and an instruction ends as `stepOutcome_exec`
says. -/
theorem stepSucceedsOrRaisesStepError : Obligations.StepSucceedsOrRaisesStepError := by
  unfold Obligations.StepSucceedsOrRaisesStepError
  intro s
  suffices StepOutcome (step s) from this
  cases hf : fetch s with
  | error e =>
    obtain ⟨rfl, -⟩ := fetch_error hf
    simp only [step, hf]
    exact .raise nofun
  | ok w =>
    cases hd : decodeWord w with
    | error e =>
      rw [step_of_decode_error hf hd]
      exact .raise nofun
    | ok i =>
      rw [step_of_fetch hf hd]
      exact stepOutcome_exec i s

/-! ### The host's step and its signal (R221, R240) -/

theorem withReply_eq_next_iff {r r' : Reply} {o : Host.Outcome State Fault Refusal} {t : State} :
    withReply r o = .next (t, r') ↔ o = .next t ∧ r = r' := by
  cases o <;> simp [withReply]

/-- The host's step is the step, with the reply that `waiting` chooses. -/
theorem hostOp_step (s : State) :
    hostOp .step s = withReply (if waiting s = true then .waiting else .done) (step s) := rfl

/-- `waiting` is R172's condition: no key is pressed and the word fetched is an FX0A. -/
theorem waiting_iff {s : State} : waiting s = true ↔
    (∀ k : Fin 16, s.key k = false) ∧ ∃ w x, fetch s = .ok w ∧ decodeWord w = .ok (.ldXK x) := by
  constructor
  · intro h
    unfold waiting at h
    split at h
    case h_1 => cases h
    case h_2 w hf =>
      split at h
      case h_1 x hd => exact ⟨lowestKey_eq_none_iff.mp (Option.isNone_iff_eq_none.mp h), w, x, hf, hd⟩
      case h_2 => cases h
  · rintro ⟨hkeys, w, x, hf, hd⟩
    rw [waiting_of_fetch_ldXK hf hd, lowestKey_eq_none_iff.mpr hkeys, Option.isNone_none]

/-- The host's step answers Waiting exactly when the instruction waits, and then with the state as it was. -/
theorem hostOp_step_eq_waiting_iff {s t : State} :
    hostOp .step s = .next (t, .waiting) ↔ t = s ∧ waiting s = true := by
  constructor
  · intro h
    have hw : waiting s = true := by
      by_contra hw
      rw [hostOp_step, if_neg hw, withReply_eq_next_iff] at h
      exact Reply.noConfusion h.2
    obtain ⟨hkeys, w, x, hf, hd⟩ := waiting_iff.mp hw
    rw [hostOp_step_of_waiting hf hd (lowestKey_eq_none_iff.mpr hkeys)] at h
    cases h
    exact ⟨rfl, hw⟩
  · rintro ⟨rfl, hw⟩
    obtain ⟨hkeys, w, x, hf, hd⟩ := waiting_iff.mp hw
    exact hostOp_step_of_waiting hf hd (lowestKey_eq_none_iff.mpr hkeys)

/-- Settles O31: the reply is chosen by `waiting`, and an error is handed on whatever the reply. -/
theorem waitingOnlyFromKeyWait : Obligations.WaitingOnlyFromKeyWait := by
  unfold Obligations.WaitingOnlyFromKeyWait
  intro s
  refine ⟨fun t => ?_, fun t hstep hnot => ?_, fun e hstep => ?_⟩
  · rw [hostOp_step_eq_waiting_iff, waiting_iff]
  · rw [hostOp_step, if_neg (mt waiting_iff.mp hnot), hstep, withReply]
  · rw [hostOp_step, hstep, withReply]

/-! ### The timers (R241) -/

/-- The count-down of one timer is the subtraction of 1 that stops at 0. -/
theorem countDown_toNat (b : Byte) : (if 0 < b.toNat then b - 1 else 0).toNat = b.toNat - 1 := by
  split <;> bv_omega

/-- `n` ticks change the timers alone, each by `n`. -/
theorem State.iterate_tickTimers (s : State) : ∀ n : Nat,
    ∃ dt st, State.tickTimers^[n] s = { s with dt := dt, st := st } ∧ dt.toNat = s.dt.toNat - n ∧
      st.toNat = s.st.toNat - n
  | 0 => ⟨s.dt, s.st, rfl, rfl, rfl⟩
  | n + 1 => by
    obtain ⟨dt, st, heq, hdt, hst⟩ := State.iterate_tickTimers s n
    rw [Function.iterate_succ_apply', heq]
    refine ⟨_, _, rfl, ?_, ?_⟩
    · rw [countDown_toNat, hdt, Nat.sub_sub]
    · rw [countDown_toNat, hst, Nat.sub_sub]

theorem runOps_replicate_tickTimers : ∀ (n : Nat) (s : State),
    runOps (List.replicate n .tickTimers) s = .next (State.tickTimers^[n] s)
  | 0, _ => rfl
  | n + 1, s => runOps_replicate_tickTimers n s.tickTimers

/-- Settles O37: a run of ticks is the iterated tick. -/
theorem timersCountDownToZero : Obligations.TimersCountDownToZero := by
  unfold Obligations.TimersCountDownToZero
  intro n s
  obtain ⟨dt, st, heq, hdt, hst⟩ := s.iterate_tickTimers n
  exact ⟨rfl, _, runOps_replicate_tickTimers n s, rfl, by rw [heq]; exact hdt, by rw [heq]; exact hst, by rw [heq]⟩

/-! ### The keys and the observers (R242 to R244) -/

theorem hostOp_setKey (s : State) (k : Fin 16) (p : Bool) : hostOp (.setKey k.val p) s = .next (s.setKey k p, .done) :=
  dif_pos k.isLt

theorem hostOp_setKey_of_ge (s : State) {k : Nat} (h : 16 ≤ k) (p : Bool) :
    hostOp (.setKey k p) s = .refused (.keyIndexOutOfRange k) :=
  dif_neg (not_lt.mpr h)

theorem hostOp_soundActive_iff (s : State) (on : Bool) :
    hostOp .soundActive s = .next (s, .sound on) ↔ s.soundActive = on := by
  simp [hostOp]

/-- Settles O44, operation by operation. -/
theorem keySetAndObservers : Obligations.KeySetAndObservers := by
  unfold Obligations.KeySetAndObservers
  intro s p
  refine ⟨fun k => ⟨_, hostOp_setKey s k p, fun j => s.setKey_key k j p, rfl⟩,
    fun k hk => hostOp_setKey_of_ge s hk p, ⟨s.disp, rfl, fun x y => rfl⟩, ?_, ?_⟩
  · simp [hostOp_soundActive_iff, State.soundActive]
  · simp [hostOp_soundActive_iff, State.soundActive]

end Sys2Proof.Machine

/-! PROOFS of the family 70_reset_and_hazards.md: the values of a constructed machine, and reset() and load_rom, which start
from them. -/

namespace Sys2Proof.Machine

/-! ### Construction (R260) -/

@[simp] theorem State.construct_getV (cfg : Config) (r : RegIdx) : (State.construct cfg).getV r = 0 := by
  simp [State.getV, State.construct, Vector.get_eq_getElem]

@[simp] theorem State.construct_key (cfg : Config) (k : Fin 16) : (State.construct cfg).key k = false := by
  simp [State.key, State.construct, Vector.get_eq_getElem]

@[simp] theorem State.construct_pixel (cfg : Config) (x : Fin 64) (y : Fin 32) :
    (State.construct cfg).pixel x y = false :=
  Display.pixel_blank x y

/-- Every byte outside the font is 0. -/
theorem State.construct_byte_zero (cfg : Config) {a : Nat} (h : a < cfg.fontBase.val ∨ cfg.fontBase.val + 80 ≤ a) :
    (State.construct cfg).byte a = 0 := by
  have hout : ¬(cfg.fontBase.val ≤ a ∧ a < cfg.fontBase.val + Config.fontSize) := by
    have hsize : Config.fontSize = 80 := rfl
    omega
  exact if_neg hout

/-- Settles O38: the font and the zero bytes are what an empty list of entries reads as. -/
theorem constructionValues : Obligations.ConstructionValues := by
  unfold Obligations.ConstructionValues
  refine ⟨fun cfg => ?_, {}, rfl⟩
  exact ⟨State.construct_getV cfg, rfl, rfl, rfl, rfl, rfl, State.construct_pixel cfg, State.construct_key cfg,
    fun k => State.construct_byte_font cfg k.isLt, fun a => State.construct_byte_zero cfg, rfl⟩

/-! ### Reset (R261) -/

@[simp] theorem State.hostReset_getV (s : State) (r : RegIdx) : s.hostReset.getV r = 0 := State.construct_getV s.cfg r
@[simp] theorem State.hostReset_i (s : State) : s.hostReset.i = 0 := rfl
@[simp] theorem State.hostReset_pc (s : State) : s.hostReset.pc = 0x200 := rfl
@[simp] theorem State.hostReset_sp (s : State) : s.hostReset.sp = 0 := rfl
@[simp] theorem State.hostReset_dt (s : State) : s.hostReset.dt = 0 := rfl
@[simp] theorem State.hostReset_st (s : State) : s.hostReset.st = 0 := rfl
@[simp] theorem State.hostReset_keys (s : State) : s.hostReset.keys = s.keys := rfl
@[simp] theorem State.hostReset_cfg (s : State) : s.hostReset.cfg = s.cfg := rfl
@[simp] theorem State.hostReset_pixel (s : State) (x : Fin 64) (y : Fin 32) : s.hostReset.pixel x y = false :=
  State.construct_pixel s.cfg x y

theorem State.hostReset_byte (s : State) (a : Nat) : s.hostReset.byte a = (State.construct s.cfg).byte a := rfl

/-- Settles O40: a reset machine is a constructed one with other keys and draws. -/
theorem resetKeepsKeysAndConfig : Obligations.ResetKeepsKeysAndConfig := by
  unfold Obligations.ResetKeepsKeysAndConfig
  intro s
  exact ⟨s.hostReset, rfl, rfl, rfl, s.hostReset_getV, rfl, rfl, rfl, rfl, rfl, s.hostReset_pixel, s.hostReset_byte⟩

/-- After reset() the first fetch reads the zero word at 0x200, which the font does not reach, and that word is illegal. -/
theorem step_hostReset (s : State) : step s.hostReset = .fault (.unknownOpcode 0x0000) := by
  have hzero : ∀ {a : Nat}, 0x200 ≤ a → s.hostReset.byte a = 0 := fun ha =>
    State.construct_byte_zero s.cfg (by omega)
  have hfetch : fetch s.hostReset = .ok 0x0000 := by
    have hpc : s.hostReset.pc.toNat = 0x200 := rfl
    rw [fetch_eq_wordOfBytes (by rw [hpc]) (by rw [hpc]; decide), hpc, hzero (by decide), hzero (by decide)]
    rfl
  exact illegalWordStepsToUnknownOpcode s.hostReset 0x0000 hfetch (.inl (by decide))

/-! ### Loading a ROM (R262, R263) -/

/-- The quirks of a load are those given, or those before it; no other field changes. -/
theorem State.setQuirks_eq (s : State) (q : Option Quirks) :
    s.setQuirks q = { s with cfg := { s.cfg with quirks := q.getD s.cfg.quirks } } := by
  cases q <;> rfl

/-- The state of R262: a reset machine, with the quirks of the load, and the image at 0x200. -/
def State.withRom (s : State) (bytes : List Byte) (q : Option Quirks) : State :=
  (s.setQuirks q).hostReset.setBytes Config.romBase bytes

theorem loadRom_of_le {bytes : List Byte} (h : bytes.length ≤ 0xE00) (q : Option Quirks) (s : State) :
    loadRom bytes q s = .ok (s.withRom bytes q) :=
  if_neg (not_lt.mpr h)

theorem loadRom_of_gt {bytes : List Byte} (h : 0xE00 < bytes.length) (q : Option Quirks) (s : State) :
    loadRom bytes q s = .error (.romTooLarge bytes.length) :=
  if_pos h

theorem hostOp_loadRom_of_le {bytes : List Byte} (h : bytes.length ≤ 0xE00) (q : Option Quirks) (s : State) :
    hostOp (.loadRom bytes q) s = .next (s.withRom bytes q, .done) := by
  rw [hostOp, loadRom_of_le h]

theorem hostOp_loadRom_of_gt {bytes : List Byte} (h : 0xE00 < bytes.length) (q : Option Quirks) (s : State) :
    hostOp (.loadRom bytes q) s = .fault (.romTooLarge bytes.length) := by
  rw [hostOp, loadRom_of_gt h]

section WithRom

variable (s : State) (bytes : List Byte) (q : Option Quirks)

@[simp] theorem State.withRom_getV (r : RegIdx) : (s.withRom bytes q).getV r = 0 := by simp [State.withRom]
@[simp] theorem State.withRom_i : (s.withRom bytes q).i = 0 := by simp [State.withRom]
@[simp] theorem State.withRom_pc : (s.withRom bytes q).pc = 0x200 := by simp [State.withRom]
@[simp] theorem State.withRom_sp : (s.withRom bytes q).sp = 0 := by simp [State.withRom]
@[simp] theorem State.withRom_dt : (s.withRom bytes q).dt = 0 := by simp [State.withRom]
@[simp] theorem State.withRom_st : (s.withRom bytes q).st = 0 := by simp [State.withRom]
@[simp] theorem State.withRom_pixel (x : Fin 64) (y : Fin 32) : (s.withRom bytes q).pixel x y = false := by
  simp [State.withRom]
@[simp] theorem State.withRom_keys : (s.withRom bytes q).keys = s.keys := by simp [State.withRom, State.setQuirks_eq]
@[simp] theorem State.withRom_cfg : (s.withRom bytes q).cfg = { s.cfg with quirks := q.getD s.cfg.quirks } := by
  simp [State.withRom, State.setQuirks_eq]

/-- Outside the image memory is as at construction; the quirks do not touch it. -/
theorem State.withRom_byte_outside {a : Nat} (h : a < 0x200 ∨ 0x200 + bytes.length ≤ a) :
    (s.withRom bytes q).byte a = (State.construct s.cfg).byte a := by
  rw [State.withRom, State.setBytes_byte_of_not_mem bytes Config.romBase a h, State.hostReset_byte, State.setQuirks_eq]
  rfl

theorem State.withRom_byte (hlen : bytes.length ≤ 0xE00) {k : Nat} (hk : k < bytes.length) :
    (s.withRom bytes q).byte (0x200 + k) = bytes[k] :=
  State.setBytes_byte bytes Config.romBase k hk (State.construct_wf _) (Nat.add_le_add_left hlen 0x200)

/-- With an empty image a load is a reset, so its first step fails as the one after reset() does. -/
theorem step_withRom_nil : step (s.withRom [] q) = .fault (.unknownOpcode 0x0000) := step_hostReset (s.setQuirks q)

end WithRom

/-- Settles O41: the image lies above the font and above the rest of the reserved area. -/
theorem loadRomPlacesBytes : Obligations.LoadRomPlacesBytes := by
  unfold Obligations.LoadRomPlacesBytes
  intro bytes q s hlen
  have hfont : ∀ k : Fin 80, (s.withRom bytes q).byte (s.cfg.fontBase.val + k.val) = Config.fontData.getD k.val 0 := by
    intro k
    rw [s.withRom_byte_outside bytes q (.inl (by omega)), State.construct_byte_font s.cfg k.isLt]
  have hzero : ∀ a : Nat, (a < s.cfg.fontBase.val ∨ s.cfg.fontBase.val + 80 ≤ a) →
      (a < 0x200 ∨ 0x200 + bytes.length ≤ a) → (s.withRom bytes q).byte a = 0 := by
    intro a hnofont hnorom
    rw [s.withRom_byte_outside bytes q hnorom, State.construct_byte_zero s.cfg hnofont]
  refine ⟨_, hostOp_loadRom_of_le hlen q s, fun k => s.withRom_byte bytes q hlen, hfont, hzero, s.withRom_getV bytes q,
    s.withRom_i bytes q, s.withRom_pc bytes q, s.withRom_sp bytes q, s.withRom_dt bytes q, s.withRom_st bytes q,
    s.withRom_pixel bytes q, s.withRom_keys bytes q, by simp, by simp, ?_⟩
  rintro rfl
  exact step_withRom_nil s q

/-- Settles O43: the image begins where the first fetch reads. -/
theorem firstFetchAfterLoad : Obligations.FirstFetchAfterLoad := by
  unfold Obligations.FirstFetchAfterLoad
  refine ⟨step_hostReset, fun q s => ⟨_, loadRom_of_le (Nat.zero_le _) q s, step_withRom_nil s q⟩, ?_⟩
  intro b0 b1 rest q s hrest
  have hlen : (b0 :: b1 :: rest).length ≤ 0xE00 := hrest
  refine ⟨_, loadRom_of_le hlen q s, ?_⟩
  have hpc : (s.withRom (b0 :: b1 :: rest) q).pc.toNat = 0x200 := by rw [State.withRom_pc]; rfl
  have hb0 : (s.withRom (b0 :: b1 :: rest) q).byte 0x200 = b0 := s.withRom_byte _ q hlen (k := 0) (by simp)
  have hb1 : (s.withRom (b0 :: b1 :: rest) q).byte (0x200 + 1) = b1 := s.withRom_byte _ q hlen (k := 1) (by simp)
  rw [fetch_eq_wordOfBytes (by rw [hpc]) (by rw [hpc]; decide), hpc, hb0, hb1]

/-! ### Runs of host operations (R246, R247) -/

theorem runOps_cons_of_next {op : HostOp} {ops : List HostOp} {s u : State} {r : Reply}
    (h : hostOp op s = .next (u, r)) : runOps (op :: ops) s = runOps ops u := by
  rw [runOps, h]

theorem runOps_cons_of_romTooLarge {op : HostOp} {ops : List HostOp} {s : State} {n : Nat}
    (h : hostOp op s = .fault (.romTooLarge n)) : runOps (op :: ops) s = runOps ops s := by
  rw [runOps, h]

/-- Settles O42: the refusal carries no state, and a run goes on after it. -/
theorem romTooLargeChangesNothing : Obligations.RomTooLargeChangesNothing := by
  unfold Obligations.RomTooLargeChangesNothing
  intro bytes q s ops hlen
  have hrefused := hostOp_loadRom_of_gt hlen q s
  exact ⟨hrefused, runOps_cons_of_romTooLarge hrefused⟩

/-- A run that ends in a state went on from the next state of its first operation, or from the state as it was after a ROM
that was too large. -/
theorem runOps_cons_next {op : HostOp} {ops : List HostOp} {s t : State} (h : runOps (op :: ops) s = .next t) :
    (∃ u r, hostOp op s = .next (u, r) ∧ runOps ops u = .next t) ∨ runOps ops s = .next t := by
  unfold runOps at h
  split at h
  case h_1 u r hop => exact .inl ⟨u, r, hop, h⟩
  case h_2 => exact .inr h
  case h_3 => cases h
  case h_4 => cases h

/-! ### The invariant over host operations -/

theorem inv_construct (cfg : Config) : Inv (State.construct cfg) :=
  ⟨State.construct_wf cfg, nofun, (by decide : (0x200 : Word).toNat ≤ 0x10FE), nofun⟩

/-- Settles O45: nothing is listed in memory and no stack entry is live. -/
theorem constructionMeetsInv : Obligations.ConstructionMeetsInv := by
  unfold Obligations.ConstructionMeetsInv
  exact ⟨inv_construct, inv_construct {}⟩

/-- The invariant does not speak of the keys and the draws, in which a reset machine differs from a constructed one. -/
theorem inv_hostReset (s : State) : Inv s.hostReset := by
  obtain ⟨hmem, hclean, hpc, hstack⟩ := inv_construct s.cfg
  exact ⟨hmem, hclean, hpc, hstack⟩

/-- Bytes stored above the reserved area keep the invariant. -/
theorem Inv.setBytes {s : State} (hi : Inv s) {a : Nat} (ha : 0x1FF < a) (bs : List Byte) : Inv (s.setBytes a bs) where
  memWf := State.setBytes_wf bs a hi.memWf
  reservedClean c hc := (State.mem_setBytes hc).elim (hi.reservedClean c) (Nat.lt_of_lt_of_le ha)
  pcBound := by simpa using hi.pcBound
  stackLive := by simpa using hi.stackLive

theorem inv_withRom (s : State) (bytes : List Byte) (q : Option Quirks) : Inv (s.withRom bytes q) :=
  (inv_hostReset (s.setQuirks q)).setBytes (by decide) bytes

theorem Inv.tickTimers {s : State} (hi : Inv s) : Inv s.tickTimers :=
  ⟨hi.memWf, hi.reservedClean, hi.pcBound, hi.stackLive⟩

theorem Inv.setKey {s : State} (hi : Inv s) (k : Fin 16) (p : Bool) : Inv (s.setKey k p) :=
  ⟨hi.memWf, hi.reservedClean, hi.pcBound, hi.stackLive⟩

/-- Every host operation that succeeds keeps the invariant. -/
theorem Inv.of_hostOp_next {op : HostOp} {s t : State} {r : Reply} (hi : Inv s) (h : hostOp op s = .next (t, r)) :
    Inv t := by
  cases op with
  | reset =>
    cases h
    exact inv_hostReset s
  | loadRom bytes q =>
    by_cases hlen : bytes.length ≤ 0xE00
    · rw [hostOp_loadRom_of_le hlen] at h
      cases h
      exact inv_withRom s bytes q
    · rw [hostOp_loadRom_of_gt (not_le.mp hlen)] at h
      cases h
  | step =>
    obtain ⟨hstep, -⟩ := withReply_eq_next_iff.mp h
    exact stepKeepsInv s t hi hstep
  | tickTimers =>
    cases h
    exact hi.tickTimers
  | setKey k p =>
    by_cases hk : k < 16
    · rw [hostOp_setKey s ⟨k, hk⟩ p] at h
      cases h
      exact hi.setKey ⟨k, hk⟩ p
    · rw [hostOp_setKey_of_ge s (not_lt.mp hk) p] at h
      cases h
  | display | soundActive =>
    cases h
    exact hi

/-- Settles O47, by induction on the operations: each keeps the invariant, and so does a ROM that is too large, after which
the run goes on from the same state. -/
theorem hostRunKeepsInv : Obligations.HostRunKeepsInv := by
  unfold Obligations.HostRunKeepsInv
  intro ops
  induction ops with
  | nil =>
    intro s t hi h
    cases h
    exact hi
  | cons op ops ih =>
    intro s t hi h
    obtain ⟨u, r, hop, hrest⟩ | hrest := runOps_cons_next h
    · exact ih u t (hi.of_hostOp_next hop) hrest
    · exact ih s t hi hrest

end Sys2Proof.Machine
